-- ==== Sys2Proof/Word.lean ====
section
/-! DEFINITION. The two plain data types of the unit: the 8-bit cell and the register number. -/

namespace Sys2Proof

/-- A byte: one memory cell, one register, one instruction byte; unsigned, 0 to 255 (R5, R10, R40).
Bit 0 is the least significant bit. -/
abbrev Byte := BitVec 8

/-- The number of a general register, 0 to 7 (R10).
It is the checked form of a register operand byte (R14); the byte itself may be any value. -/
abbrev RegIx := Fin 8

end Sys2Proof
end

