-- ==== Sys2Proof/Config.lean ====
section
/-! DEFINITION. The implementation parameters of R4 that are not opcode bytes.
The opcode bytes (`Config.opcode`) stand in Decode.lean, beside the decoder that reads them.
The unit leaves no value free (93_implementation_defined.md), so there is no opaque constant here. -/

namespace Sys2Proof.Config

/-- `MEM_SIZE` of R4: the number of memory cells, addresses 0 to 255. -/
abbrev memSize : Nat := 256

/-- `PC_MAX` of R4: the largest program counter value; it means "ran off the end of memory" (R15). -/
abbrev pcMax : Nat := 256

/-- `SP_INDEX` of R4: register 7 is the stack pointer (R12). -/
abbrev spIndex : RegIx := 7

/-- `FL_INDEX` of R4: register 5 is the flags register (R13). -/
abbrev flIndex : RegIx := 5

/-- `SP_RESET` of R4. -/
abbrev spReset : Byte := 0xF4

/-- `PC_RESET` of R4. -/
abbrev pcReset : Nat := 0

/-- `LOAD_ORIGIN` of R4: an argument of the load operation (R28); this is its default. -/
abbrev loadOrigin : Nat := 0

end Sys2Proof.Config
end

