-- ==== Sys2Proof/Machine/State.lean ====
section
/-! DEFINITION. The state of the unit as plain data (the tuple at the head of 10_state.md, with the output history `OUT`),
the reasons a step has no successor, and the state after reset (R34). -/

namespace Sys2Proof.Machine

/-- The memory `M` (R25, R40) in one canonical form: the cells that do not hold 0, by rising address.
An unlisted address reads as 0, the reset content of every cell (R34). -/
abbrev Memory := List Host.Cell

/-- The three kinds of fault the unit raises (R170). -/
inductive FaultKind where
  /-- R171: the fetched byte is not an opcode. -/
  | invalidOpcode
  /-- R172: a register index or a computed address outside its domain. -/
  | outOfRange
  /-- R173: DIV or MOD with a zero divisor. -/
  | divideByZero
  deriving DecidableEq, Repr

/-- The fault record when it is not `none` (R23). -/
structure FaultRecord where
  kind : FaultKind
  /-- The program counter when the fault was raised, 0 to 256. -/
  pc   : Nat
  /-- The offending operand, an integer from -1 to 256 (R171 to R173). -/
  info : Int
  deriving DecidableEq, Repr

/-- Everything the spec gives the unit. -/
structure State where
  /-- `x[0]` to `x[7]` (R10); `x[5]` is FL (R13), `x[7]` is SP (R12). -/
  regs    : Vector Byte 8
  /-- The program counter, 0 to 256 (R15; `State.Inv` bounds it, log entry 5). -/
  pc      : Nat
  /-- `M` (R25). -/
  mem     : Memory
  /-- `RUN` (R21): true is Running, false is Halted. -/
  running : Bool
  /-- `FAULT` (R23). -/
  fault   : Option FaultRecord
  /-- `OUT` (R24): the values presented on the output port since reset, oldest first. -/
  out     : List Byte
  deriving DecidableEq, Repr

/-- Why a state has no successor. The three faults of R170 are NOT here: raising one is a step, to the
state R178 describes, with the record in `State.fault`. -/
inductive Fault where
  /-- Raised by `step` alone, when `RUN = 0` (R81: a halted unit takes no step). The argument is the
  record the unit halted with: `none` after HLT, the fault otherwise (R93). Safe: the unit does nothing there either. -/
  | halted (record : Option FaultRecord)
  deriving DecidableEq, Repr

/-- Why the model gives an instruction no meaning. No instruction of this model is refused. -/
inductive Refusal where
  /-- Raised by an arm of `exec` whose instruction has no meaning yet; no arm does. Safe. -/
  | notModelled (mnemonic : String)
  deriving DecidableEq, Repr

/-- What an instruction, or a step, answers. -/
abbrev Result := Host.Outcome State Fault Refusal

/-- The state after reset (R34, R200): every value is the spec's. -/
def State.reset : State where
  regs    := #v[0, 0, 0, 0, 0, 0, 0, Config.spReset]
  pc      := Config.pcReset
  mem     := []
  running := true
  fault   := none
  out     := []

end Sys2Proof.Machine
end

