-- ==== Sys2Proof/Machine/Ops.lean ====
section
/-! DEFINITION. The named operations over memory, registers, the program counter and the output port,
and `raise`, the one way a fault is taken (R8, R178). There is no return from a fault (R179). -/

namespace Sys2Proof.Machine

/-! ### Memory -/

/-- The byte at address `k`: the value last written there, 0 if none (R50 (c)). -/
def Memory.readAt : Memory → Nat → Byte
  | [], _ => 0
  | (k', v) :: m, k => if k = k' then v else Memory.readAt m k

/-- Drop the entry of address `k`, so that it reads as 0. -/
def Memory.eraseAt (m : Memory) (k : Nat) : Memory :=
  m.filter fun c => c.1 != k

/-- Put the entry of address `k` at its place by rising address. -/
def Memory.insertAt : Memory → Nat → Byte → Memory
  | [], k, v => [(k, v)]
  | (k', v') :: m, k, v =>
    if k < k' then (k, v) :: (k', v') :: m
    else if k = k' then (k, v) :: m
    else (k', v') :: Memory.insertAt m k v

/-- `M[k] <- v`, keeping the canonical form: a cell that holds 0 has no entry. -/
def Memory.writeAt (m : Memory) (k : Nat) (v : Byte) : Memory :=
  if v = 0 then m.eraseAt k else m.insertAt k v

/-- Write bytes at consecutive addresses from `k`; a byte whose address lies outside the memory is dropped. -/
def Memory.placeFrom (m : Memory) (k : Nat) : List Byte → Memory
  | [] => m
  | v :: bytes =>
    Memory.placeFrom (if k < Config.memSize then m.writeAt k v else m) (k + 1) bytes

/-- The canonical form: addresses strictly rising and inside the memory, no entry that holds 0. -/
abbrev Memory.wf (m : Memory) : Prop :=
  m.Pairwise (fun c d => c.1 < d.1) ∧ ∀ c ∈ m, c.1 < Config.memSize ∧ c.2 ≠ 0

/-- `MemRead(addr, 1)` (R7). The address is a byte, so it cannot lie outside the memory. -/
def State.memRead (s : State) (addr : Byte) : Byte :=
  s.mem.readAt addr.toNat

/-- `MemWrite(addr, 1, v)` (R7). -/
def State.memWrite (s : State) (addr v : Byte) : State :=
  { s with mem := s.mem.writeAt addr.toNat v }

/-! ### Registers -/

/-- `x[i]` (R6). No register is hardwired (R11). -/
def State.reg (s : State) (i : RegIx) : Byte := s.regs[i]

/-- `x[i] <- v` (R6). -/
def State.setReg (s : State) (i : RegIx) (v : Byte) : State :=
  { s with regs := s.regs.set i v }

/-- `SP`, a synonym of `x[7]` (R6, R12). -/
def State.sp (s : State) : Byte := s.reg Config.spIndex

/-- `FL`, a synonym of `x[5]` (R6, R13). -/
def State.fl (s : State) : Byte := s.reg Config.flIndex

/-! ### Program counter, output port -/

/-- Sequential advance by the instruction's own length (R16 (i), R88). -/
def State.advance (s : State) (length : Nat) : State :=
  { s with pc := s.pc + length }

/-- Overwrite the program counter with an absolute address (R16 (ii), R140). -/
def State.jumpTo (s : State) (target : Byte) : State :=
  { s with pc := target.toNat }

/-- `emit(v)` (R6, R24): append to `OUT`. -/
def State.emit (s : State) (v : Byte) : State :=
  { s with out := s.out ++ [v] }

/-- `RUN <- 0` (R100). -/
def State.halt (s : State) : State :=
  { s with running := false }

/-! ### Taking a fault -/

/-- The state a fault leaves: `FAULT <- (K, pc, info)`, `RUN <- 0`, and nothing else (R178). -/
def State.raised (s : State) (kind : FaultKind) (info : Int) : State :=
  { s with fault := some { kind := kind, pc := s.pc, info := info }, running := false }

/-- `raise K(info)` (R8): the instruction ends at once, in the state R178 describes. -/
def raise (kind : FaultKind) (info : Int) (s : State) : Result :=
  .next (s.raised kind info)

end Sys2Proof.Machine
end

