-- ==== Sys2Proof/Machine/Flags.lean ====
section
/-! DEFINITION. The flags L, G, E in register 5 (R18) and the three-way compare that makes them (R127). -/

namespace Sys2Proof.Machine

/-- L, Less-Than: bit 2 of register 5 (R18). No instruction reads it implicitly (R19). -/
def State.flagL (s : State) : Bool := s.fl.getLsbD 2

/-- G, Greater-Than: bit 1 of register 5 (R18). No instruction reads it implicitly (R19). -/
def State.flagG (s : State) : Bool := s.fl.getLsbD 1

/-- E, Equal: bit 0 of register 5 (R18), the one bit JEQ and JNE read (R19). -/
def State.flagE (s : State) : Bool := s.fl.getLsbD 0

/-- The flags byte CMP writes for operands `x` and `y`, compared as unsigned numbers (R18, R127). -/
def compareFlags (x y : Byte) : Byte :=
  if x.toNat < y.toNat then 0x04
  else if y.toNat < x.toNat then 0x02
  else 0x01

end Sys2Proof.Machine
end

