-- ==== Sys2Proof/Machine/Operands.lean ====
section
/-! DEFINITION. The operand forms of R61 with the checks of R85 and R86 in the order of R89.
Each form hands its register numbers to the instruction's semantics only when every check passed, so
that every check precedes every write (R9, R176). -/

namespace Sys2Proof.Machine

/-- A register operand is the whole byte: 0 to 7 names a register, 8 to 255 names none (R14, R64). -/
def registerIndex (b : Byte) : Option RegIx :=
  if h : b.toNat < 8 then some ⟨b.toNat, h⟩ else none

/-- The index check of one operand byte (R86): `OutOfRange(b)` if it names no register. -/
def withRegister (b : Byte) (s : State) (k : RegIx → Result) : Result :=
  match registerIndex b with
  | some i => k i
  | none => raise .outOfRange b.toNat s

/-- `n` declared operand bytes lie inside the memory, else `OutOfRange(256)` (R85; R82 for `n = 0`).
`step` makes the check already before it has an instruction; here it makes each meaning total (log entry 4). -/
def withOperandSpace (n : Nat) (s : State) (k : Result) : Result :=
  if 255 < s.pc + n then raise .outOfRange 256 s else k

/-- Format `Z`. -/
def formZ (s : State) (k : Result) : Result :=
  withOperandSpace 0 s k

/-- Format `R`. -/
def formR (a : Byte) (s : State) (k : RegIx → Result) : Result :=
  withOperandSpace 1 s (withRegister a s k)

/-- Format `RR`: index a is checked before index b (R86). -/
def formRR (a b : Byte) (s : State) (k : RegIx → RegIx → Result) : Result :=
  withOperandSpace 2 s (withRegister a s fun i => withRegister b s fun j => k i j)

/-- Format `RI`: the immediate is never checked (R65, R86). -/
def formRI (a : Byte) (s : State) (k : RegIx → Result) : Result :=
  withOperandSpace 2 s (withRegister a s k)

end Sys2Proof.Machine
end

