-- ==== Sys2Proof/Machine/Alu.lean ====
section
/-! DEFINITION. The ALU instructions and CMP (42_alu.md).
A result is computed as a mathematical integer and reduced modulo 256 at the end (R110). -/

namespace Sys2Proof.Machine

/-- Reduction of a mathematical integer modulo 256 (R9, R110): wrap-around, never saturation. -/
def narrow (n : Int) : Byte := BitVec.ofInt 8 n

/-! ### The value each instruction computes -/

/-- R114. -/
def aluMul (x y : Byte) : Byte := narrow (x.toNat * y.toNat)

/-- R115, R126. -/
def aluAdd (x y : Byte) : Byte := narrow (x.toNat + y.toNat)

/-- R116. -/
def aluSub (x y : Byte) : Byte := narrow (x.toNat - y.toNat)

/-- R117: the unsigned integer quotient (R113). -/
def aluDiv (x y : Byte) : Byte := narrow (x.toNat / y.toNat)

/-- R118: the unsigned remainder (R113). -/
def aluMod (x y : Byte) : Byte := narrow (x.toNat % y.toNat)

/-- R122. -/
def aluNot (x : Byte) : Byte := x ^^^ 0xFF

/-- R123: the amount is the whole of `y` (R125). -/
def aluShl (x y : Byte) : Byte := narrow (x.toNat * 2 ^ y.toNat)

/-- R124: logical, the amount is the whole of `y` (R125). -/
def aluShr (x y : Byte) : Byte := narrow (x.toNat / 2 ^ y.toNat)

/-! ### The shared shapes -/

/-- `x[i] <- v`, then the advance of a three-byte instruction (R88, R111). -/
def writeResult (i : RegIx) (v : Byte) (s : State) : Result :=
  .next ((s.setReg i v).advance 3)

/-- A two-register ALU instruction: both sources are read before `x[a]` is written (R111). -/
def aluRR (f : Byte → Byte → Byte) (a b : Byte) (s : State) : Result :=
  formRR a b s fun i j => writeResult i (f (s.reg i) (s.reg j)) s

/-- DIV and MOD: `DivideByZero` with the index of the divisor register, before any write (R117, R118, R173). -/
def aluDivRR (f : Byte → Byte → Byte) (a b : Byte) (s : State) : Result :=
  formRR a b s fun i j =>
    if s.reg j = 0 then raise .divideByZero j.val s
    else writeResult i (f (s.reg i) (s.reg j)) s

/-! ### The instructions -/

/-- MUL a, b (R114). -/
def execMul (a b : Byte) (s : State) : Result := aluRR aluMul a b s

/-- ADD a, b (R115). -/
def execAdd (a b : Byte) (s : State) : Result := aluRR aluAdd a b s

/-- SUB a, b (R116). -/
def execSub (a b : Byte) (s : State) : Result := aluRR aluSub a b s

/-- DIV a, b (R117). -/
def execDiv (a b : Byte) (s : State) : Result := aluDivRR aluDiv a b s

/-- MOD a, b (R118). -/
def execMod (a b : Byte) (s : State) : Result := aluDivRR aluMod a b s

/-- AND a, b (R119). -/
def execAnd (a b : Byte) (s : State) : Result := aluRR (fun x y => x &&& y) a b s

/-- OR a, b (R120). -/
def execOr (a b : Byte) (s : State) : Result := aluRR (fun x y => x ||| y) a b s

/-- XOR a, b (R121). -/
def execXor (a b : Byte) (s : State) : Result := aluRR (fun x y => x ^^^ y) a b s

/-- NOT a (R122): two bytes long, and independent of the byte at `pc + 2` (R84). -/
def execNot (a : Byte) (s : State) : Result :=
  formR a s fun i => .next ((s.setReg i (aluNot (s.reg i))).advance 2)

/-- SHL a, b (R123). -/
def execShl (a b : Byte) (s : State) : Result := aluRR aluShl a b s

/-- SHR a, b (R124). -/
def execShr (a b : Byte) (s : State) : Result := aluRR aluShr a b s

/-- ADDI a, b (R126): `b` is the addend itself, not a register index. -/
def execAddi (a b : Byte) (s : State) : Result :=
  formRI a s fun i => writeResult i (aluAdd (s.reg i) b) s

/-- CMP a, b (R127): all of register 5 is written, and no other register. -/
def execCmp (a b : Byte) (s : State) : Result :=
  formRR a b s fun i j => writeResult Config.flIndex (compareFlags (s.reg i) (s.reg j)) s

end Sys2Proof.Machine
end

