-- ==== Sys2Proof/Machine/Jumps.lean ====
section
/-! DEFINITION. JMP, JEQ, JNE (43_jumps.md). The target is the content of a register, an absolute address (R140). -/

namespace Sys2Proof.Machine

/-- A jump that is taken under a condition and otherwise falls through by its own length, 2 (R88).
The register index is checked whether or not the jump is taken (R86). -/
def jumpIf (taken : Bool) (a : Byte) (s : State) : Result :=
  formR a s fun i => .next (if taken then s.jumpTo (s.reg i) else s.advance 2)

/-- JMP a (R141). -/
def execJmp (a : Byte) (s : State) : Result := jumpIf true a s

/-- JEQ a (R142): taken if E is set. -/
def execJeq (a : Byte) (s : State) : Result := jumpIf s.flagE a s

/-- JNE a (R143): taken if E is clear. -/
def execJne (a : Byte) (s : State) : Result := jumpIf (!s.flagE) a s

end Sys2Proof.Machine
end

