-- ==== Sys2Proof/Machine/Stack.lean ====
section
/-! DEFINITION. PUSH, POP, CALL, RET (44_stack_and_subroutine.md): a full-descending stack at `SP` (R154),
whose automatic updates are checked and never wrap (R12). -/

namespace Sys2Proof.Machine

/-- Pre-decrement (R150, R152): `OutOfRange(-1)` if `SP = 0`, else go on in the state with `SP` one less. -/
def withDecrementedSP (s : State) (k : State → Result) : Result :=
  if s.sp = 0 then raise .outOfRange (-1) s
  else k (s.setReg Config.spIndex (s.sp - 1))

/-- An address or stack-pointer value about to be stored in a byte: `OutOfRange(256)` if it exceeds 255
(R151, R152, R153), else its byte. -/
def withAddressByte (n : Nat) (s : State) (k : Byte → Result) : Result :=
  if 255 < n then raise .outOfRange 256 s else k (BitVec.ofNat 8 n)

/-- PUSH a (R150): `x[a]` is read after the decrement, so `PUSH R7` stores the decremented `SP`. -/
def execPush (a : Byte) (s : State) : Result :=
  formR a s fun i =>
    withDecrementedSP s fun s' => .next ((s'.memWrite s'.sp (s'.reg i)).advance 2)

/-- POP a (R151): with `a = 7` the popped byte is what is incremented. -/
def execPop (a : Byte) (s : State) : Result :=
  formR a s fun i =>
    let v := s.memRead s.sp
    let old := if i = Config.spIndex then v else s.sp
    withAddressByte (old.toNat + 1) s fun sp' =>
      .next (((s.setReg i v).setReg Config.spIndex sp').advance 2)

/-- CALL a (R152): the stack pointer is checked before the return address `pc + 2`;
the target is read after the decrement. -/
def execCall (a : Byte) (s : State) : Result :=
  formR a s fun i =>
    withDecrementedSP s fun s' =>
      withAddressByte (s.pc + 2) s fun ret =>
        .next ((s'.memWrite s'.sp ret).jumpTo (s'.reg i))

/-- RET (R153). -/
def execRet (s : State) : Result :=
  formZ s <|
    withAddressByte (s.sp.toNat + 1) s fun sp' =>
      .next ((s.setReg Config.spIndex sp').jumpTo (s.memRead s.sp))

end Sys2Proof.Machine
end

