-- ==== Sys2Proof/Machine/System.lean ====
section
/-! DEFINITION. HLT, LDI, PRN (41_system_and_data.md). -/

namespace Sys2Proof.Machine

/-- HLT (R100): `RUN <- 0` and the program counter advances by 1. -/
def execHlt (s : State) : Result :=
  formZ s (.next (s.halt.advance 1))

/-- LDI a, b (R101): `x[a] <- b`. -/
def execLdi (a b : Byte) (s : State) : Result :=
  formRI a s fun i => .next ((s.setReg i b).advance 3)

/-- PRN a (R102): `emit(x[a])`. -/
def execPrn (a : Byte) (s : State) : Result :=
  formR a s fun i => .next ((s.emit (s.reg i)).advance 2)

end Sys2Proof.Machine
end

