-- ==== Sys2Proof/Syntax.lean ====
section
/-! DEFINITION. The instruction set as syntax: one constructor of `Instr` per row of spec/opcode_table.json.
An operand is the WHOLE operand byte: a register operand byte of 8 or more is an instruction that
raises `OutOfRange` (R14, R64), so it is a term here, and `Instr.wellFormed` says which terms name registers. -/

namespace Sys2Proof

/-- The 23 mnemonics of R1, the entries of the opcode table. -/
inductive Mnemonic where
  | hlt
  | ldi
  | prn
  | mul
  | add
  | sub
  | div
  | mod
  | and
  | or
  | xor
  | not
  | shl
  | shr
  | addi
  | cmp
  | jmp
  | jeq
  | jne
  | push
  | pop
  | call
  | ret
  deriving DecidableEq, Repr

/-- An instruction with its operand bytes, `a` the byte after the opcode and `b` the byte after that
(R60, R61). The decoded instruction is a value inside one step, never state (R26). -/
inductive Instr where
  /-- R100: halt. -/
  | hlt
  /-- R101: load the immediate byte b into register a. -/
  | ldi (a b : Byte)
  /-- R102: present register a on the output port. -/
  | prn (a : Byte)
  /-- R114: multiply. -/
  | mul (a b : Byte)
  /-- R115: add. -/
  | add (a b : Byte)
  /-- R116: subtract. -/
  | sub (a b : Byte)
  /-- R117: unsigned quotient. -/
  | div (a b : Byte)
  /-- R118: unsigned remainder. -/
  | mod (a b : Byte)
  /-- R119: bitwise and. -/
  | and (a b : Byte)
  /-- R120: bitwise or. -/
  | or (a b : Byte)
  /-- R121: bitwise exclusive or. -/
  | xor (a b : Byte)
  /-- R122: bitwise complement. -/
  | not (a : Byte)
  /-- R123: shift left by the whole of register b. -/
  | shl (a b : Byte)
  /-- R124: logical shift right by the whole of register b. -/
  | shr (a b : Byte)
  /-- R126: add the immediate byte b. -/
  | addi (a b : Byte)
  /-- R127: compare and write the flags register. -/
  | cmp (a b : Byte)
  /-- R141: jump to the address in register a. -/
  | jmp (a : Byte)
  /-- R142: jump if E is set. -/
  | jeq (a : Byte)
  /-- R143: jump if E is clear. -/
  | jne (a : Byte)
  /-- R150: push register a. -/
  | push (a : Byte)
  /-- R151: pop into register a. -/
  | pop (a : Byte)
  /-- R152: push the return address and jump. -/
  | call (a : Byte)
  /-- R153: pop the program counter. -/
  | ret
  deriving DecidableEq, Repr

/-- The table entry an instruction belongs to. -/
def Instr.mnemonic : Instr → Mnemonic
  | .hlt => .hlt
  | .ldi _ _ => .ldi
  | .prn _ => .prn
  | .mul _ _ => .mul
  | .add _ _ => .add
  | .sub _ _ => .sub
  | .div _ _ => .div
  | .mod _ _ => .mod
  | .and _ _ => .and
  | .or _ _ => .or
  | .xor _ _ => .xor
  | .not _ => .not
  | .shl _ _ => .shl
  | .shr _ _ => .shr
  | .addi _ _ => .addi
  | .cmp _ _ => .cmp
  | .jmp _ => .jmp
  | .jeq _ => .jeq
  | .jne _ => .jne
  | .push _ => .push
  | .pop _ => .pop
  | .call _ => .call
  | .ret => .ret

end Sys2Proof
end

