-- ==== Sys2Proof/Decode.lean ====
section
/-! DEFINITION. The opcode table, the decoder (total on any list of bytes, rejecting by name) and after it the encoder.
Decoder and encoder take the table as an argument, because R68 makes 19 of its 23 bytes open parameters;
`Config.opcode` is the table with the values R67 and R68 give. -/

namespace Sys2Proof

/-- The opcode table as a parameter: the byte of each mnemonic (R68, R92). -/
abbrev OpcodeTable := Mnemonic → Byte

/-- The opcode bytes. HLT, LDI, PRN and MUL are the source's (R67); the other 19 are the defaults
of the parameters `OPC_<mnemonic>` of R68 (PRESUMED: the LS-8 family's values, and the spec's own for ADDI; log entry 2). -/
def Config.opcode : OpcodeTable
  | .hlt => 0x01
  | .ldi => 0x82
  | .prn => 0x47
  | .mul => 0xA2
  | .add => 0xA0
  | .sub => 0xA1
  | .div => 0xA3
  | .mod => 0xA4
  | .and => 0xA8
  | .or => 0xAA
  | .xor => 0xAB
  | .not => 0x69
  | .shl => 0xAC
  | .shr => 0xAD
  | .addi => 0xAE
  | .cmp => 0xA7
  | .jmp => 0x54
  | .jeq => 0x55
  | .jne => 0x56
  | .push => 0x45
  | .pop => 0x46
  | .call => 0x50
  | .ret => 0x11

/-- The four instruction formats of R61. -/
inductive Format where
  /-- `Z`: the opcode byte alone. -/
  | Z
  /-- `R`: a register index. -/
  | R
  /-- `RR`: two register indices. -/
  | RR
  /-- `RI`: a register index and an immediate. -/
  | RI
  deriving DecidableEq, Repr

/-- The format of each table entry (R61). -/
def Mnemonic.format : Mnemonic → Format
  | .hlt => .Z
  | .ldi => .RI
  | .prn => .R
  | .mul => .RR
  | .add => .RR
  | .sub => .RR
  | .div => .RR
  | .mod => .RR
  | .and => .RR
  | .or => .RR
  | .xor => .RR
  | .not => .R
  | .shl => .RR
  | .shr => .RR
  | .addi => .RI
  | .cmp => .RR
  | .jmp => .R
  | .jeq => .R
  | .jne => .R
  | .push => .R
  | .pop => .R
  | .call => .R
  | .ret => .Z

/-- The number of operand bytes a format declares (R60, R61). -/
def Format.operandCount : Format → Nat
  | .Z => 0
  | .R => 1
  | .RR => 2
  | .RI => 2

/-- The operand count of a table entry: the instruction is `1 + operandCount` bytes long (R60, R62). -/
def Mnemonic.operandCount (m : Mnemonic) : Nat := m.format.operandCount

/-- The operand count of an instruction. -/
def Instr.operandCount (i : Instr) : Nat := i.mnemonic.operandCount

/-- The entries of the table in the order of spec/opcode_table.json. -/
def Mnemonic.all : List Mnemonic :=
  [.hlt, .ldi, .prn, .mul, .add, .sub, .div, .mod,
   .and, .or, .xor, .not, .shl, .shr, .addi, .cmp,
   .jmp, .jeq, .jne, .push, .pop, .call, .ret]

/-- Decode phase (R83): the table entry whose byte is `op`, by the whole byte (R63); none if there is none (R70). -/
def OpcodeTable.lookup (t : OpcodeTable) (op : Byte) : Option Mnemonic :=
  Mnemonic.all.find? fun m => t m == op

/-- The instruction of a table entry with operand bytes `a` and `b`; a byte the entry does not declare is dropped (R84). -/
def Mnemonic.build (m : Mnemonic) (a b : Byte) : Instr :=
  match m with
  | .hlt => .hlt
  | .ldi => .ldi a b
  | .prn => .prn a
  | .mul => .mul a b
  | .add => .add a b
  | .sub => .sub a b
  | .div => .div a b
  | .mod => .mod a b
  | .and => .and a b
  | .or => .or a b
  | .xor => .xor a b
  | .not => .not a
  | .shl => .shl a b
  | .shr => .shr a b
  | .addi => .addi a b
  | .cmp => .cmp a b
  | .jmp => .jmp a
  | .jeq => .jeq a
  | .jne => .jne a
  | .push => .push a
  | .pop => .pop a
  | .call => .call a
  | .ret => .ret

/-- Why a byte string holds no instruction. -/
inductive DecodeError where
  /-- There is no opcode byte (R82: the fetch lies outside the memory). -/
  | noOpcode
  /-- The opcode byte is not in the table (R70). -/
  | invalidOpcode (op : Byte)
  /-- The bytes end before a declared operand byte (R85). -/
  | truncated (m : Mnemonic)
  deriving DecidableEq, Repr

/-- The operand bytes an entry declares, and only those, taken from the bytes after the opcode (R84);
`none` where they run out (R85). -/
def Mnemonic.takeOperands (m : Mnemonic) (bytes : List Byte) : Option (Instr × List Byte) :=
  match m.operandCount, bytes with
  | 0, rest => some (m.build 0 0, rest)
  | 1, a :: rest => some (m.build a 0, rest)
  | 2, a :: b :: rest => some (m.build a b, rest)
  | _, _ => none

/-- The instruction at the head of a byte string and the bytes after it.
The opcode is looked up before any operand byte is needed (R83 before R85). -/
def decodeWith (t : OpcodeTable) : List Byte → Except DecodeError (Instr × List Byte)
  | [] => .error .noOpcode
  | op :: bytes =>
    match t.lookup op with
    | none => .error (.invalidOpcode op)
    | some m =>
      match m.takeOperands bytes with
      | none => .error (.truncated m)
      | some found => .ok found

/-- The decoder of the unit. -/
def decode (bytes : List Byte) : Except DecodeError (Instr × List Byte) :=
  decodeWith Config.opcode bytes

/-- The operand bytes of an instruction, in address order (R43, R61). -/
def Instr.operandBytes : Instr → List Byte
  | .hlt => []
  | .ldi a b => [a, b]
  | .prn a => [a]
  | .mul a b => [a, b]
  | .add a b => [a, b]
  | .sub a b => [a, b]
  | .div a b => [a, b]
  | .mod a b => [a, b]
  | .and a b => [a, b]
  | .or a b => [a, b]
  | .xor a b => [a, b]
  | .not a => [a]
  | .shl a b => [a, b]
  | .shr a b => [a, b]
  | .addi a b => [a, b]
  | .cmp a b => [a, b]
  | .jmp a => [a]
  | .jeq a => [a]
  | .jne a => [a]
  | .push a => [a]
  | .pop a => [a]
  | .call a => [a]
  | .ret => []

/-- The bytes of an instruction at increasing addresses: the opcode, then the operands (R60, R61). -/
def encodeWith (t : OpcodeTable) (i : Instr) : List Byte :=
  t i.mnemonic :: i.operandBytes

/-- The encoder of the unit. -/
def encode (i : Instr) : List Byte := encodeWith Config.opcode i

/-- The longest instruction, in bytes (R60). -/
def maxInstrBytes : Nat := 3

/-- The bytes of an opcode-table word: byte k is bits 8k+7 to 8k of `w`, the first byte lowest (R63);
the bits at and above `nbits` are 0. -/
def tableWordBytes (nbits w : Nat) : List Byte :=
  (List.range maxInstrBytes).map fun k => BitVec.ofNat 8 ((w % 2 ^ nbits) / 2 ^ (8 * k))

/-- The instruction the decoder reads from the bytes of an opcode-table word. -/
def decodeTableWord (nbits w : Nat) : Option Instr :=
  match decode (tableWordBytes nbits w) with
  | .ok (i, _) => some i
  | .error _ => none

end Sys2Proof
end

