-- ==== Sys2Proof/Machine/Fetch.lean ====
section
/-! DEFINITION. Fetching the instruction at the program counter (R82 to R85). -/

namespace Sys2Proof.Machine

/-- The bytes from the program counter on, as many as the longest instruction has, cut at the end of the memory (R49).
The decoder uses the declared operand bytes of these and no others (R84). -/
def State.window (s : State) : List Byte :=
  (List.range (min maxInstrBytes (Config.memSize - s.pc))).map fun k => s.mem.readAt (s.pc + k)

/-- The instruction at the program counter, or the fault to raise: `OutOfRange(256)` for an opcode or a
declared operand byte outside the memory (R82, R85), `InvalidOpcode(op)` for a byte not in the table (R83). -/
def fetch (t : OpcodeTable) (s : State) : Except (FaultKind × Int) Instr :=
  match decodeWith t s.window with
  | .ok (i, _) => .ok i
  | .error .noOpcode => .error (.outOfRange, 256)
  | .error (.invalidOpcode op) => .error (.invalidOpcode, op.toNat)
  | .error (.truncated _) => .error (.outOfRange, 256)

end Sys2Proof.Machine
end

