-- ==== Sys2Proof/Machine/Step.lean ====
section
/-! DEFINITION. The step of R89. -/

namespace Sys2Proof.Machine

/-- One step under an opcode table (R80, R89): a halted unit has no step (R81); otherwise fetch, decode and execute
one instruction, or raise one fault. -/
def stepWith (t : OpcodeTable) (s : State) : Host.Outcome State Fault Refusal :=
  if s.running then
    match fetch t s with
    | .ok i => exec i s
    | .error (kind, info) => raise kind info s
  else .fault (.halted s.fault)

/-- One step of the unit. -/
def step (s : State) : Host.Outcome State Fault Refusal :=
  stepWith Config.opcode s

/-- `s` with the bytes of an opcode-table word where `step` fetches next: at the program counter.
A byte that would lie outside the memory is dropped. Nothing but memory changes. -/
def State.withFetchWord (s : State) (nbits w : Nat) : State :=
  { s with mem := s.mem.placeFrom s.pc (tableWordBytes nbits w) }

end Sys2Proof.Machine
end

