-- ==== Sys2Proof/Machine/HostPort.lean ====
section
/-! DEFINITION. The unit's interfaces to the host at the level of events (R27, R28, R31, R33, R202).
A `Session` is the unit together with what its host knows of it, so that the load port can be open
between reset and the first step and at no other time (R28, D20). -/

namespace Sys2Proof.Machine

/-! ### Reset, load, step -/

/-- The reset input (R27, R200): in any state, every piece of state takes its reset value; nothing survives. -/
def State.assertReset (_ : State) : State := State.reset

/-- What a load does to the unit (R28): `M[origin + i] <- words[i]` and nothing else;
`none` when the words do not fit. When a load may happen is `Session.load`'s. -/
def State.copyIn (s : State) (words : List Byte) (origin : Nat) : Option State :=
  if origin + words.length ≤ Config.memSize then
    some { s with mem := s.mem.placeFrom origin words }
  else none

/-- The unit as its host drives it. -/
structure Session where
  unit    : State
  /-- A step has been taken since the last reset. The host knows it; it is no state of the unit (R26, log entry 7). -/
  stepped : Bool
  deriving DecidableEq, Repr

/-- The unit has been reset and has taken no step. -/
def Session.start : Session where
  unit    := State.reset
  stepped := false

/-- The host asserts reset: possible at any time, Running or Halted (R33, R200). -/
def Session.assertReset (h : Session) : Session where
  unit    := h.unit.assertReset
  stepped := false

/-- The program load port, `load(words, origin)` (R28): refused (`none`) once a step has been taken since reset, so in
particular in the middle of a run and of a Halted unit, and refused when the words do not fit. -/
def Session.load (h : Session) (words : List Byte) (origin : Nat := Config.loadOrigin) : Option Session :=
  if h.stepped then none
  else (h.unit.copyIn words origin).map fun s => { h with unit := s }

/-- The unit takes a step; `none` if it has none (R81). -/
def Session.step (h : Session) : Option Session :=
  match Sys2Proof.Machine.step h.unit with
  | .next t => some { unit := t, stepped := true }
  | .fault _ => none
  | .refused _ => none

/-- Everything that can happen to the unit: the two moves of the host (R33) and a step of the unit. -/
inductive Event where
  | reset
  | load (words : List Byte) (origin : Nat)
  | step
  deriving DecidableEq, Repr

/-- The session after an event; `none` where the event is not available. -/
def Session.after (h : Session) : Event → Option Session
  | .reset => some h.assertReset
  | .load words origin => h.load words origin
  | .step => h.step

/-- The launch state of a program (R202): the reset state with its words copied in. -/
def launch (words : List Byte) (origin : Nat := Config.loadOrigin) : Option State :=
  (Session.start.load words origin).map (·.unit)

/-! ### Status outputs -/

/-- The 2-bit code of a fault kind (R31, R170). -/
def FaultKind.code : FaultKind → BitVec 2
  | .invalidOpcode => 1
  | .outOfRange => 2
  | .divideByZero => 3

/-- Status output `running` (R31). -/
def State.statusRunning (s : State) : Bool := s.running

/-- Status output `fault_kind` (R31): 0 if there is no fault. -/
def State.statusFaultKind (s : State) : BitVec 2 :=
  match s.fault with
  | none => 0
  | some r => r.kind.code

/-- Status output `fault_pc` (R31): the `pc` field of `FAULT`; none while `FAULT = none` (log entry 8). -/
def State.statusFaultPc (s : State) : Option Nat := s.fault.map (·.pc)

/-- Status output `fault_info` (R31): the `info` field of `FAULT`; none while `FAULT = none` (log entry 8). -/
def State.statusFaultInfo (s : State) : Option Int := s.fault.map (·.info)

end Sys2Proof.Machine
end

