-- ==== Sys2Proof/Safety.lean ====
section
/-! DEFINITION. What counts as a safe run, and the words the claims are stated in. -/

namespace Sys2Proof

/-! ### What an instruction may change -/

/-- The table of R90: `i` may write register `r`. -/
def Instr.mayWrite (i : Instr) (r : RegIx) : Prop :=
  match i with
  | .hlt | .prn _ | .jmp _ | .jeq _ | .jne _ => False
  | .ldi a _ | .addi a _ | .mul a _ | .add a _ | .sub a _ | .div a _ | .mod a _ => a.toNat = r.val
  | .and a _ | .or a _ | .xor a _ | .shl a _ | .shr a _ | .not a => a.toNat = r.val
  | .cmp _ _ => r = 5
  | .push _ | .call _ | .ret => r = 7
  | .pop a => a.toNat = r.val ∨ r = 7

/-- The instructions that overwrite the program counter, always or on a condition (R16 (ii)). -/
def Instr.redirects : Instr → Bool
  | .jmp _ | .jeq _ | .jne _ | .call _ | .ret => true
  | .hlt | .ldi _ _ | .prn _ | .mul _ _ | .add _ _ | .sub _ _ | .div _ _ | .mod _ _ => false
  | .and _ _ | .or _ _ | .xor _ _ | .not _ | .shl _ _ | .shr _ _ | .addi _ _ | .cmp _ _ => false
  | .push _ | .pop _ => false

/-- The instructions that read the cell at `SP` (R25): POP and RET. -/
def Instr.loadsStackTop : Instr → Bool
  | .pop _ | .ret => true
  | .hlt | .ldi _ _ | .prn _ | .mul _ _ | .add _ _ | .sub _ _ | .div _ _ | .mod _ _ => false
  | .and _ _ | .or _ _ | .xor _ _ | .not _ | .shl _ _ | .shr _ _ | .addi _ _ | .cmp _ _ => false
  | .jmp _ | .jeq _ | .jne _ | .push _ | .call _ => false

/-- The instructions that write memory (R25): PUSH and CALL, in the cell at `SP - 1`. -/
def Instr.storesBelowStackTop : Instr → Bool
  | .push _ | .call _ => true
  | .hlt | .ldi _ _ | .prn _ | .mul _ _ | .add _ _ | .sub _ _ | .div _ _ | .mod _ _ => false
  | .and _ _ | .or _ _ | .xor _ _ | .not _ | .shl _ _ | .shr _ _ | .addi _ _ | .cmp _ _ => false
  | .jmp _ | .jeq _ | .jne _ | .pop _ | .ret => false

end Sys2Proof

namespace Sys2Proof.Machine

/-! ### The invariant -/

/-- The range of `info` for each kind of fault (R170, R172): an opcode byte; a register index 8 to 255 or
an address -1 or 256; a register number. -/
def FaultKind.infoLegal : FaultKind → Int → Bool
  | .invalidOpcode, n => decide (0 ≤ n ∧ n ≤ 255)
  | .outOfRange, n => decide (n = -1 ∨ 8 ≤ n ∧ n ≤ 256)
  | .divideByZero, n => decide (0 ≤ n ∧ n ≤ 7)

/-- What holds of every state a run can reach: the program counter is 0 to 256 (R15), the memory is in
its canonical form, and a fault record implies a halted unit whose program counter is still the one
recorded (R8, R23). -/
abbrev State.Inv (s : State) : Prop :=
  s.pc ≤ Config.pcMax ∧ s.mem.wf ∧
    ∀ r ∈ s.fault, s.running = false ∧ r.pc = s.pc ∧ r.kind.infoLegal r.info = true

/-! ### Runs -/

/-- `t` is reached from `s` by zero or more steps (R93). -/
inductive Reaches (s : State) : State → Prop
  | here : Reaches s s
  | after {t u : State} : Reaches s t → step t = .next u → Reaches s u

/-- The sessions a host can bring about: events from a unit that has just been reset, further resets among them (R33). -/
inductive SessionReaches : Session → Prop
  | start : SessionReaches Session.start
  | after {h h' : Session} {e : Event} : SessionReaches h → h.after e = some h' → SessionReaches h'

/-- The end of a normal run (R81, R93). -/
def State.Final (s : State) : Prop := s.running = false ∧ s.fault = none

/-- The end of a run by a fault (R81, R93). -/
def State.Faulted (s : State) : Prop := s.running = false ∧ s.fault ≠ none

/-- No run from `s` ends by a fault. -/
def State.Safe (s : State) : Prop := ∀ t, Reaches s t → ¬ t.Faulted

/-! ### What an instruction leaves alone -/

/-- Every register outside `regs` and every memory cell outside `cells` is unchanged. -/
def KeepsExcept (regs : List RegIx) (cells : List Nat) (s t : State) : Prop :=
  (∀ r, r ∉ regs → t.reg r = s.reg r) ∧
    ∀ k, k ∉ cells → t.mem.readAt k = s.mem.readAt k

/-- `RUN`, `FAULT` and `OUT` are unchanged. -/
def StatusSame (s t : State) : Prop :=
  t.running = s.running ∧ t.fault = s.fault ∧ t.out = s.out

/-- The faults of an instruction's operand bytes (R85, R86): a declared byte outside the memory, else
the first register operand that is 8 or more. -/
def OperandFaults (i : Instr) : Prop :=
  ∀ s : State,
    (255 < s.pc + i.operandCount → exec i s = raise .outOfRange 256 s) ∧
    (s.pc + i.operandCount ≤ 255 →
      ∀ b, i.registerOperands.find? (fun b => decide (8 ≤ b.toNat)) = some b →
        exec i s = raise .outOfRange b.toNat s)

/-! ### The pseudocode of R89 -/

/-- R89 line by line, on the raw bytes at the program counter: the order of the checks is the fault priority of R177. -/
def pseudocodeStep (s : State) : Result :=
  if s.pc = 256 then raise .outOfRange 256 s
  else
    let op := s.mem.readAt s.pc
    match Config.opcode.lookup op with
    | none => raise .invalidOpcode op.toNat s
    | some m =>
      let n := m.operandCount
      if 255 < s.pc + n then raise .outOfRange 256 s
      else
        let a := s.mem.readAt (s.pc + 1)
        let b := s.mem.readAt (s.pc + 2)
        if 1 ≤ n ∧ 7 < a.toNat then raise .outOfRange a.toNat s
        else if m.format = .RR ∧ 7 < b.toNat then raise .outOfRange b.toNat s
        else exec (m.build a b) s

end Sys2Proof.Machine
end

