-- ==== Sys2Proof/Certificates/Slice0/Obligations.lean ====
section
/-! DEFINITION. The statements for the provers. Each docstring names the rule it formalises.
`raise` is the fault primitive; the statement RaiseWritesOnlyFaultAndRun says what it does. -/

open Sys2Proof Sys2Proof.Machine

/-! ### Reset, the invariant, runs -/

/-- R34: the table of reset values. `FAULT = none` is the spec's decision D8 (log entry 3), and the empty `OUT` is
what R34 derives from R24. -/
def Obligations.ResetLeavesTheSpecifiedState : Prop :=
  (∀ r : RegIx, r ≠ 7 → State.reset.reg r = 0) ∧
  State.reset.reg 7 = 0xF4 ∧
  State.reset.pc = 0 ∧
  (∀ k, State.reset.mem.readAt k = 0) ∧
  State.reset.running = true ∧
  State.reset.fault = none ∧
  State.reset.out = []

/-- The invariant holds at reset. -/
def Obligations.ResetMeetsTheInvariant : Prop :=
  State.reset.Inv

/-- Every step keeps the invariant: the program counter stays in 0..256, the memory stays canonical, a
fault record is legal and belongs to a halted unit at the recorded address. Rests on R8, R15, R23, R170.
The canonical form is the model's (log entry 9). -/
def Obligations.EveryStepKeepsTheInvariant : Prop :=
  ∀ s t : State, s.Inv → step s = .next t → t.Inv

/-- R81: a halted unit takes no step, whatever its state, until reset. How a missing successor is
answered (`halted`, with the record) is the model's choice (log entry 1). -/
def Obligations.HaltedUnitHasNoStep : Prop :=
  ∀ s : State, s.running = false →
    step s = .fault (.halted s.fault) ∧ s.assertReset = State.reset

/-- R80, 93_implementation_defined.md: every Running state has a successor, never a stop or a refusal. -/
def Obligations.RunningUnitAlwaysSteps : Prop :=
  ∀ s : State, s.running = true → ∃ t, step s = .next t

/-- R21, R23, R179: once halted, a run stays in the same state for good; so a fault record, once there,
is the one record of the run. -/
def Obligations.HaltedIsTerminal : Prop :=
  (∀ s t : State, s.running = false → Reaches s t → t = s) ∧
  (∀ s t r, s.Inv → s.fault = some r → Reaches s t → t.fault = some r)

/-- R21, R93: a step that halts the unit without a fault runs the HLT at the program counter. -/
def Obligations.OnlyHltHaltsWithoutFault : Prop :=
  ∀ s t : State, step s = .next t → t.running = false → t.fault = none →
    s.pc ≤ 255 ∧ s.mem.readAt s.pc = 0x01 ∧ t.pc = s.pc + 1

/-- R24: along any run `OUT` is only extended at its end. -/
def Obligations.OutputHistoryOnlyGrows : Prop :=
  ∀ s t : State, Reaches s t → ∃ more, t.out = s.out ++ more

/-! ### Taking a fault -/

/-- R178, R8: fault entry writes `FAULT` and `RUN` and nothing else. -/
def Obligations.RaiseWritesOnlyFaultAndRun : Prop :=
  ∀ (kind : FaultKind) (info : Int) (s : State), ∃ t, raise kind info s = .next t ∧
    t.fault = some { kind := kind, pc := s.pc, info := info } ∧ t.running = false ∧
    t.pc = s.pc ∧ t.out = s.out ∧ KeepsExcept [] [] s t

/-- R176: faults are precise (the spec's decision D6, log entry 3). -/
def Obligations.FaultsArePrecise : Prop :=
  ∀ (s t : State) (r : FaultRecord), step s = .next t → s.fault = none → t.fault = some r →
    r.pc = s.pc ∧ t.running = false ∧ t.pc = s.pc ∧ t.out = s.out ∧
      t.regs = s.regs ∧ t.mem = s.mem

/-- R172: `OutOfRange` is recorded in the seven listed situations only, each with the listed `info`.
With POP R7 the popped byte is what is incremented (log entry 10). -/
def Obligations.OutOfRangeOnlyInTheSevenSituations : Prop :=
  ∀ (s t : State) (r : FaultRecord), step s = .next t → s.fault = none → t.fault = some r →
    r.kind = .outOfRange →
    (255 < s.pc ∧ r.info = 256) ∨
    ∃ m, Config.opcode.lookup (s.mem.readAt s.pc) = some m ∧
      ((255 < s.pc + m.operandCount ∧ r.info = 256) ∨
       (m.format ≠ .Z ∧ 8 ≤ (s.mem.readAt (s.pc + 1)).toNat ∧
          r.info = (s.mem.readAt (s.pc + 1)).toNat) ∨
       (m.format = .RR ∧ 8 ≤ (s.mem.readAt (s.pc + 2)).toNat ∧
          r.info = (s.mem.readAt (s.pc + 2)).toNat) ∨
       ((m = .push ∨ m = .call) ∧ s.sp = 0 ∧ r.info = -1) ∨
       (m = .call ∧ s.pc = 254 ∧ r.info = 256) ∨
       ((m = .pop ∨ m = .ret) ∧ s.sp = 255 ∧ r.info = 256) ∨
       (m = .pop ∧ s.mem.readAt (s.pc + 1) = 7 ∧ s.mem.readAt s.sp.toNat = 255 ∧ r.info = 256))

/-- R173: `DivideByZero` comes from DIV and MOD with a zero divisor only, after both register indices
have been checked, and records the index of the divisor register (the record's info is decision D8, log entry 3). -/
def Obligations.DivideByZeroComesFromDivAndModOnly : Prop :=
  (∀ (i : Instr) (s t : State) (r : FaultRecord), exec i s = .next t → s.fault = none →
    t.fault = some r → r.kind = .divideByZero →
    ∃ (a b : Byte) (j : RegIx), (i = .div a b ∨ i = .mod a b) ∧ a.toNat < 8 ∧ b.toNat = j.val ∧
      s.reg j = 0 ∧ r.pc = s.pc ∧ r.info = j.val) ∧
  (∀ (a b : Byte) (j : RegIx) (s : State), a.toNat < 8 → b.toNat = j.val → s.pc + 2 ≤ 255 →
    s.reg j = 0 →
    exec (.div a b) s = raise .divideByZero j.val s ∧
    exec (.mod a b) s = raise .divideByZero j.val s)

/-! ### Fetch, decode, sequencing -/

/-- When the bytes at the program counter are those of an instruction, the step of a Running unit is that
instruction's meaning in that very state; nothing is added around it (R87). -/
def Obligations.StepRunsTheDecodedInstruction : Prop :=
  ∀ (i : Instr) (s : State), s.running = true → s.pc + i.operandCount ≤ 255 →
    (∀ k (h : k < (encode i).length), s.mem.readAt (s.pc + k) = (encode i)[k]) →
    step s = exec i s

/-- R89: the step is the pseudocode, check by check, in every Running state whose program counter is in range. -/
def Obligations.StepIsThePseudocode : Prop :=
  ∀ s : State, s.running = true → s.pc ≤ 256 → step s = pseudocodeStep s

/-- R171: a byte that is not in the table raises `InvalidOpcode` with that byte, before any operand is
looked at; and a step records `InvalidOpcode` for no other reason. -/
def Obligations.UnknownByteRaisesInvalidOpcode : Prop :=
  (∀ s : State, s.running = true → s.pc ≤ 255 →
    Config.opcode.lookup (s.mem.readAt s.pc) = none →
    step s = raise .invalidOpcode (s.mem.readAt s.pc).toNat s) ∧
  (∀ (s t : State) (r : FaultRecord), step s = .next t → s.fault = none → t.fault = some r →
    r.kind = .invalidOpcode →
    s.pc ≤ 255 ∧ Config.opcode.lookup (s.mem.readAt s.pc) = none ∧
      r = { kind := .invalidOpcode, pc := s.pc, info := (s.mem.readAt s.pc).toNat })

/-- R82: a fetch with `pc = 256` raises `OutOfRange(256)`; otherwise the opcode byte is `M[pc]`.
The fault is the spec's decision D2 (log entry 3). -/
def Obligations.OpcodeFetchBeyondMemory : Prop :=
  (∀ s : State, s.running = true → s.pc = 256 → step s = raise .outOfRange 256 s) ∧
  (∀ s : State, s.pc ≤ 255 → s.window.head? = some (s.mem.readAt s.pc))

/-- R85: a declared operand byte above address 255 raises `OutOfRange(256)`; an instruction that ends at
or below 255 executes, a one-byte instruction at 255 and a two-byte one at 254 among them (the spec's decision D3, log entry 3). -/
def Obligations.OperandFetchBeyondMemory : Prop :=
  ∀ (s : State) (m : Mnemonic), s.running = true → s.pc ≤ 255 →
    Config.opcode.lookup (s.mem.readAt s.pc) = some m →
    (255 < s.pc + m.operandCount → step s = raise .outOfRange 256 s) ∧
    (s.pc + m.operandCount ≤ 255 →
      step s = exec (m.build (s.mem.readAt (s.pc + 1)) (s.mem.readAt (s.pc + 2))) s)

/-- R86, R64: the first register operand that is 8 or more is reported, for every instruction
(always, and in this order: the spec's decisions D7 and D12, log entry 3). Before it, a declared operand byte above
address 255 is reported as R85 says (decision D3, log entry 3); that `exec` repeats the fetch's check, also for HLT and RET
beyond address 255 (R82), is the model's choice (log entry 4). -/
def Obligations.BadRegisterIndexIsReported : Prop :=
  ∀ i : Instr, OperandFaults i

/-- R84, R71: bytes an instruction does not declare have no influence on it. Change the memory outside the bytes of
the fetched instruction (for POP and RET, which load the cell at `SP`, outside that cell too): the step then leaves the
same registers, program counter, status and output; PUSH and CALL store the same byte in the same cell (unless they
fault); and every other cell keeps what it held. -/
def Obligations.UndeclaredBytesHaveNoInfluence : Prop :=
  ∀ (s : State) (mem' : Memory) (i : Instr) (t : State),
    s.running = true → fetch Config.opcode s = .ok i →
    (∀ k, k ≤ i.operandCount → mem'.readAt (s.pc + k) = s.mem.readAt (s.pc + k)) →
    (i.loadsStackTop = true → mem'.readAt s.sp.toNat = s.mem.readAt s.sp.toNat) →
    step s = .next t →
    ∃ t', step { s with mem := mem' } = .next t' ∧
      t' = { t with mem := t'.mem } ∧
      (i.storesBelowStackTop = true → t.running = true →
        t'.mem.readAt (s.sp - 1).toNat = t.mem.readAt (s.sp - 1).toNat) ∧
      ∀ k, (i.storesBelowStackTop = true → t.running = true → k ≠ (s.sp - 1).toNat) →
        t.mem.readAt k = s.mem.readAt k ∧ t'.mem.readAt k = mem'.readAt k

/-- R90: the fetch-advance law and its table: without a fault, an instruction that does not redirect advances by
`1 + N`; only the registers of the table, the one cell of PUSH and CALL, `RUN` by HLT and `OUT` by PRN change. -/
def Obligations.FetchAdvanceLaw : Prop :=
  ∀ (i : Instr) (s t : State), exec i s = .next t → s.fault = none → t.fault = none →
    (i.redirects = false → t.pc = s.pc + 1 + i.operandCount) ∧
    (∀ r, ¬ i.mayWrite r → t.reg r = s.reg r) ∧
    ((∀ a, i ≠ .push a) → (∀ a, i ≠ .call a) → ∀ k, t.mem.readAt k = s.mem.readAt k) ∧
    (∀ k, k ≠ (s.sp - 1).toNat → t.mem.readAt k = s.mem.readAt k) ∧
    (i ≠ .hlt → t.running = s.running) ∧
    ((∀ a, i ≠ .prn a) → t.out = s.out)

/-- R20: at most one of L, G, E stays set as long as no instruction other than CMP has register 5 as a destination. -/
def Obligations.FlagsStayExclusive : Prop :=
  ∀ (i : Instr) (s t : State), exec i s = .next t →
    ((∃ a b, i = .cmp a b) ∨ ¬ i.mayWrite 5) →
    s.fl ∈ ([0, 1, 2, 4] : List Byte) → t.fl ∈ ([0, 1, 2, 4] : List Byte)

/-! ### Encoding -/

/-- Decoding inverts encoding for every instruction, every operand byte and every injective opcode table
(R60, R61; R68 leaves the table a parameter), whatever bytes follow. -/
def Obligations.DecodeInvertsEncode : Prop :=
  ∀ (t : OpcodeTable), Function.Injective t → ∀ (i : Instr) (rest : List Byte),
    decodeWith t (encodeWith t i ++ rest) = .ok (i, rest)

/-- What decodes is the encoding of what it decodes to: no byte of a decoded instruction is dropped, and
no byte after it is touched. -/
def Obligations.EncodeInvertsDecode : Prop :=
  ∀ (t : OpcodeTable) (bytes : List Byte) (i : Instr) (rest : List Byte),
    decodeWith t bytes = .ok (i, rest) → bytes = encodeWith t i ++ rest

/-- The default opcode table is injective, and its 23 bytes in the order of `Mnemonic.all`. All but four of them
are the spec's decision D9, not the source's (log entry 2). -/
def Obligations.OpcodeTableIsInjective : Prop :=
  Function.Injective Config.opcode ∧
  Mnemonic.all.map Config.opcode =
    [0x01, 0x82, 0x47, 0xA2, 0xA0, 0xA1, 0xA3, 0xA4, 0xA8, 0xAA, 0xAB, 0x69,
     0xAC, 0xAD, 0xAE, 0xA7, 0x54, 0x55, 0x56, 0x45, 0x46, 0x50, 0x11] ∧
  ∀ m : Mnemonic, m ∈ Mnemonic.all

/-- R67: the words of the source's program decode to its instructions, with the operand counts of the table, and 0xFF is unmapped. -/
def Obligations.SourceWordsDecode : Prop :=
  decode [0b10000010, 0b00000000, 0b00001000] = .ok (.ldi 0 8, []) ∧
  decode [0b10000010, 0b00000001, 0b00001001] = .ok (.ldi 1 9, []) ∧
  decode [0b10100010, 0b00000000, 0b00000001] = .ok (.mul 0 1, []) ∧
  decode [0b01000111, 0b00000000] = .ok (.prn 0, []) ∧
  decode [0b00000001] = .ok (.hlt, []) ∧
  decode [0b11111111] = .error (.invalidOpcode 0xFF) ∧
  Mnemonic.hlt.operandCount = 0 ∧ Mnemonic.ldi.operandCount = 2 ∧
  Mnemonic.prn.operandCount = 1 ∧ Mnemonic.mul.operandCount = 2

/-- Words of the other families, written out from the default table of R68 (decision D9, log entry 2). -/
def Obligations.DefaultWordsDecode : Prop :=
  decode [0b10100000, 0b00000111, 0b00000010] = .ok (.add 7 2, []) ∧
  decode [0b10100111, 0b00000011, 0b00000100] = .ok (.cmp 3 4, []) ∧
  decode [0b10101110, 0b00000001, 0b11111111] = .ok (.addi 1 0xFF, []) ∧
  decode [0b01101001, 0b00000101, 0b11111111] = .ok (.not 5, [0xFF]) ∧
  decode [0b01010101, 0b00000010] = .ok (.jeq 2, []) ∧
  decode [0b01000101, 0b00000110] = .ok (.push 6, []) ∧
  decode [0b01010000, 0b00000001] = .ok (.call 1, []) ∧
  decode [0b00010001] = .ok (.ret, [])

/-! ### HLT, LDI, PRN -/

/-- R100; the advance is the spec's decision D17 (log entry 3). A fetched HLT has no fault. The one fault `OperandFaults`
gives it, for a program counter beyond 255, is the fetch's (R82), which `exec` repeats by the model's choice (log entry 4). -/
def Obligations.HltHaltsAndAdvances : Prop :=
  encode .hlt = [0x01] ∧ OperandFaults .hlt ∧
  ∀ s : State, s.pc ≤ 255 → ∃ t, exec .hlt s = .next t ∧
    t.running = false ∧ t.pc = s.pc + 1 ∧ t.fault = s.fault ∧ t.out = s.out ∧
    KeepsExcept [] [] s t

/-- R101. -/
def Obligations.LdiLoadsTheImmediate : Prop :=
  ∀ a b : Byte, encode (.ldi a b) = [0x82, a, b] ∧ OperandFaults (.ldi a b) ∧
  ∀ (i : RegIx) (s : State), a.toNat = i.val → s.pc + 2 ≤ 255 →
    ∃ t, exec (.ldi a b) s = .next t ∧
      t.reg i = b ∧ t.pc = s.pc + 3 ∧ KeepsExcept [i] [] s t ∧ StatusSame s t

/-- R102. -/
def Obligations.PrnPresentsTheRegister : Prop :=
  ∀ a : Byte, encode (.prn a) = [0x47, a] ∧ OperandFaults (.prn a) ∧
  ∀ (i : RegIx) (s : State), a.toNat = i.val → s.pc + 1 ≤ 255 →
    ∃ t, exec (.prn a) s = .next t ∧
      t.out = s.out ++ [s.reg i] ∧ t.pc = s.pc + 2 ∧ KeepsExcept [] [] s t ∧
      t.running = s.running ∧ t.fault = s.fault

/-! ### ALU -/

/-- R114. -/
def Obligations.MulKeepsTheLowByte : Prop :=
  ∀ a b : Byte, encode (.mul a b) = [0xA2, a, b] ∧ OperandFaults (.mul a b) ∧
  ∀ (i j : RegIx) (s : State), a.toNat = i.val → b.toNat = j.val → s.pc + 2 ≤ 255 →
    ∃ t, exec (.mul a b) s = .next t ∧
      (t.reg i).toNat = ((s.reg i).toNat * (s.reg j).toNat) % 256 ∧
      t.pc = s.pc + 3 ∧ KeepsExcept [i] [] s t ∧ StatusSame s t

/-- R115, but for the opcode byte (decision D9). -/
def Obligations.AddWraps : Prop :=
  ∀ a b : Byte, OperandFaults (.add a b) ∧
  ∀ (i j : RegIx) (s : State), a.toNat = i.val → b.toNat = j.val → s.pc + 2 ≤ 255 →
    ∃ t, exec (.add a b) s = .next t ∧
      (t.reg i).toNat = ((s.reg i).toNat + (s.reg j).toNat) % 256 ∧
      t.pc = s.pc + 3 ∧ KeepsExcept [i] [] s t ∧ StatusSame s t

/-- R116, but for the opcode byte (decision D9): a negative difference wraps. -/
def Obligations.SubWraps : Prop :=
  ∀ a b : Byte, OperandFaults (.sub a b) ∧
  ∀ (i j : RegIx) (s : State), a.toNat = i.val → b.toNat = j.val → s.pc + 2 ≤ 255 →
    ∃ t, exec (.sub a b) s = .next t ∧
      ((t.reg i).toNat : Int) = (((s.reg i).toNat : Int) - (s.reg j).toNat) % 256 ∧
      t.pc = s.pc + 3 ∧ KeepsExcept [i] [] s t ∧ StatusSame s t

/-- R117, but for the opcode byte (decision D9). -/
def Obligations.DivGivesTheQuotient : Prop :=
  ∀ a b : Byte, OperandFaults (.div a b) ∧
  ∀ (i j : RegIx) (s : State), a.toNat = i.val → b.toNat = j.val → s.pc + 2 ≤ 255 →
    (s.reg j = 0 → exec (.div a b) s = raise .divideByZero j.val s) ∧
    (s.reg j ≠ 0 → ∃ t, exec (.div a b) s = .next t ∧
      (t.reg i).toNat = (s.reg i).toNat / (s.reg j).toNat ∧
      t.pc = s.pc + 3 ∧ KeepsExcept [i] [] s t ∧ StatusSame s t)

/-- R118, but for the opcode byte (decision D9). -/
def Obligations.ModGivesTheRemainder : Prop :=
  ∀ a b : Byte, OperandFaults (.mod a b) ∧
  ∀ (i j : RegIx) (s : State), a.toNat = i.val → b.toNat = j.val → s.pc + 2 ≤ 255 →
    (s.reg j = 0 → exec (.mod a b) s = raise .divideByZero j.val s) ∧
    (s.reg j ≠ 0 → ∃ t, exec (.mod a b) s = .next t ∧
      (t.reg i).toNat = (s.reg i).toNat % (s.reg j).toNat ∧
      t.pc = s.pc + 3 ∧ KeepsExcept [i] [] s t ∧ StatusSame s t)

/-- R113: the quotient DIV writes and the remainder MOD writes, from one state, are those of one division. -/
def Obligations.DivAndModAgree : Prop :=
  ∀ (a b : Byte) (i j : RegIx) (s q r : State), a.toNat = i.val → b.toNat = j.val →
    s.pc + 2 ≤ 255 → s.reg j ≠ 0 →
    exec (.div a b) s = .next q → exec (.mod a b) s = .next r →
    (s.reg i).toNat = (s.reg j).toNat * (q.reg i).toNat + (r.reg i).toNat ∧
      (r.reg i).toNat < (s.reg j).toNat

/-- R119, but for the opcode byte (decision D9). -/
def Obligations.AndIsBitwise : Prop :=
  ∀ a b : Byte, OperandFaults (.and a b) ∧
  ∀ (i j : RegIx) (s : State), a.toNat = i.val → b.toNat = j.val → s.pc + 2 ≤ 255 →
    ∃ t, exec (.and a b) s = .next t ∧
      (∀ n, (t.reg i).getLsbD n = ((s.reg i).getLsbD n && (s.reg j).getLsbD n)) ∧
      t.pc = s.pc + 3 ∧ KeepsExcept [i] [] s t ∧ StatusSame s t

/-- R120, but for the opcode byte (decision D9). -/
def Obligations.OrIsBitwise : Prop :=
  ∀ a b : Byte, OperandFaults (.or a b) ∧
  ∀ (i j : RegIx) (s : State), a.toNat = i.val → b.toNat = j.val → s.pc + 2 ≤ 255 →
    ∃ t, exec (.or a b) s = .next t ∧
      (∀ n, (t.reg i).getLsbD n = ((s.reg i).getLsbD n || (s.reg j).getLsbD n)) ∧
      t.pc = s.pc + 3 ∧ KeepsExcept [i] [] s t ∧ StatusSame s t

/-- R121, but for the opcode byte (decision D9). -/
def Obligations.XorIsBitwise : Prop :=
  ∀ a b : Byte, OperandFaults (.xor a b) ∧
  ∀ (i j : RegIx) (s : State), a.toNat = i.val → b.toNat = j.val → s.pc + 2 ≤ 255 →
    ∃ t, exec (.xor a b) s = .next t ∧
      (∀ n, (t.reg i).getLsbD n = ((s.reg i).getLsbD n ^^ (s.reg j).getLsbD n)) ∧
      t.pc = s.pc + 3 ∧ KeepsExcept [i] [] s t ∧ StatusSame s t

/-- R122, but for the opcode byte (decision D9): two bytes long, the complement `255 - x`. -/
def Obligations.NotComplements : Prop :=
  ∀ a : Byte, OperandFaults (.not a) ∧
  ∀ (i : RegIx) (s : State), a.toNat = i.val → s.pc + 1 ≤ 255 →
    ∃ t, exec (.not a) s = .next t ∧
      (t.reg i).toNat = 255 - (s.reg i).toNat ∧
      t.pc = s.pc + 2 ∧ KeepsExcept [i] [] s t ∧ StatusSame s t

/-- R123, but for the opcode byte (decision D9). -/
def Obligations.ShlMultipliesByAPower : Prop :=
  ∀ a b : Byte, OperandFaults (.shl a b) ∧
  ∀ (i j : RegIx) (s : State), a.toNat = i.val → b.toNat = j.val → s.pc + 2 ≤ 255 →
    ∃ t, exec (.shl a b) s = .next t ∧
      (t.reg i).toNat = ((s.reg i).toNat * 2 ^ (s.reg j).toNat) % 256 ∧
      t.pc = s.pc + 3 ∧ KeepsExcept [i] [] s t ∧ StatusSame s t

/-- R124, but for the opcode byte (decision D9). -/
def Obligations.ShrDividesByAPower : Prop :=
  ∀ a b : Byte, OperandFaults (.shr a b) ∧
  ∀ (i j : RegIx) (s : State), a.toNat = i.val → b.toNat = j.val → s.pc + 2 ≤ 255 →
    ∃ t, exec (.shr a b) s = .next t ∧
      (t.reg i).toNat = (s.reg i).toNat / 2 ^ (s.reg j).toNat ∧
      t.pc = s.pc + 3 ∧ KeepsExcept [i] [] s t ∧ StatusSame s t

/-- R125: the amount is the whole register, no amount faults, and 8 or more gives 0
(the spec's decision D15, log entry 3). -/
def Obligations.ShiftAmountIsTheWholeRegister : Prop :=
  ∀ (a b : Byte) (i j : RegIx) (s : State), a.toNat = i.val → b.toNat = j.val → s.pc + 2 ≤ 255 →
    ∃ l r, exec (.shl a b) s = .next l ∧ exec (.shr a b) s = .next r ∧
      l.fault = s.fault ∧ r.fault = s.fault ∧
      (l.reg i).toNat = ((s.reg i).toNat * 2 ^ (s.reg j).toNat) % 256 ∧
      (r.reg i).toNat = (s.reg i).toNat / 2 ^ (s.reg j).toNat ∧
      (8 ≤ (s.reg j).toNat → l.reg i = 0 ∧ r.reg i = 0)

/-- R126, but for the opcode byte (decision D9): the immediate itself is added, modulo 256. -/
def Obligations.AddiAddsTheImmediate : Prop :=
  ∀ a b : Byte, OperandFaults (.addi a b) ∧
  ∀ (i : RegIx) (s : State), a.toNat = i.val → s.pc + 2 ≤ 255 →
    ∃ t, exec (.addi a b) s = .next t ∧
      (t.reg i).toNat = ((s.reg i).toNat + b.toNat) % 256 ∧
      t.pc = s.pc + 3 ∧ KeepsExcept [i] [] s t ∧ StatusSame s t

/-- R18, and R127 but for the opcode byte (decision D9): the three-way unsigned compare of the old values
writes all of register 5, exactly one of L, G, E (the spec's decisions D10 and D24, log entry 3). -/
def Obligations.CmpSetsExactlyOneFlag : Prop :=
  ∀ a b : Byte, OperandFaults (.cmp a b) ∧
  ∀ (i j : RegIx) (s : State), a.toNat = i.val → b.toNat = j.val → s.pc + 2 ≤ 255 →
    ∃ t, exec (.cmp a b) s = .next t ∧
      ((s.reg i).toNat < (s.reg j).toNat → t.reg 5 = 0x04) ∧
      ((s.reg j).toNat < (s.reg i).toNat → t.reg 5 = 0x02) ∧
      ((s.reg i).toNat = (s.reg j).toNat → t.reg 5 = 0x01) ∧
      t.flagL = decide ((s.reg i).toNat < (s.reg j).toNat) ∧
      t.flagG = decide ((s.reg j).toNat < (s.reg i).toNat) ∧
      t.flagE = decide ((s.reg i).toNat = (s.reg j).toNat) ∧
      t.pc = s.pc + 3 ∧ KeepsExcept [5] [] s t ∧ StatusSame s t

/-! ### Jumps -/

/-- R141, but for the opcode byte (decision D9): an absolute target, not also advanced (R140). -/
def Obligations.JmpTakesTheRegister : Prop :=
  ∀ a : Byte, OperandFaults (.jmp a) ∧
  ∀ (i : RegIx) (s : State), a.toNat = i.val → s.pc + 1 ≤ 255 →
    ∃ t, exec (.jmp a) s = .next t ∧
      t.pc = (s.reg i).toNat ∧ KeepsExcept [] [] s t ∧ StatusSame s t

/-- R142, but for the opcode byte (decision D9): bit 0 of register 5 alone decides. -/
def Obligations.JeqTestsBitZero : Prop :=
  ∀ a : Byte, OperandFaults (.jeq a) ∧
  ∀ (i : RegIx) (s : State), a.toNat = i.val → s.pc + 1 ≤ 255 →
    ∃ t, exec (.jeq a) s = .next t ∧
      ((s.reg 5).toNat % 2 = 1 → t.pc = (s.reg i).toNat) ∧
      ((s.reg 5).toNat % 2 = 0 → t.pc = s.pc + 2) ∧
      KeepsExcept [] [] s t ∧ StatusSame s t

/-- R143, but for the opcode byte (decision D9): JNE jumps exactly when JEQ does not. -/
def Obligations.JneTestsBitZero : Prop :=
  ∀ a : Byte, OperandFaults (.jne a) ∧
  ∀ (i : RegIx) (s : State), a.toNat = i.val → s.pc + 1 ≤ 255 →
    ∃ t, exec (.jne a) s = .next t ∧
      ((s.reg 5).toNat % 2 = 0 → t.pc = (s.reg i).toNat) ∧
      ((s.reg 5).toNat % 2 = 1 → t.pc = s.pc + 2) ∧
      KeepsExcept [] [] s t ∧ StatusSame s t

/-! ### Stack and subroutine -/

/-- R150, but for the opcode byte (decision D9). The cell stored to is the decremented `SP`; `PUSH R7` stores
the decremented `SP` itself. -/
def Obligations.PushStoresBelowTheStackTop : Prop :=
  ∀ a : Byte, OperandFaults (.push a) ∧
  ∀ (i : RegIx) (s : State), a.toNat = i.val → s.pc + 1 ≤ 255 →
    (s.sp = 0 → exec (.push a) s = raise .outOfRange (-1) s) ∧
    (s.sp ≠ 0 → ∃ t, exec (.push a) s = .next t ∧
      t.sp.toNat = s.sp.toNat - 1 ∧
      t.mem.readAt (s.sp - 1).toNat = (if i = 7 then s.sp - 1 else s.reg i) ∧
      t.pc = s.pc + 2 ∧ KeepsExcept [7] [(s.sp - 1).toNat] s t ∧ StatusSame s t)

/-- R151, but for the opcode byte (decision D9), for a register other than 7. -/
def Obligations.PopLoadsTheStackTop : Prop :=
  ∀ a : Byte, OperandFaults (.pop a) ∧
  ∀ (i : RegIx) (s : State), a.toNat = i.val → i ≠ 7 → s.pc + 1 ≤ 255 →
    (s.sp = 255 → exec (.pop a) s = raise .outOfRange 256 s) ∧
    (s.sp ≠ 255 → ∃ t, exec (.pop a) s = .next t ∧
      t.reg i = s.mem.readAt s.sp.toNat ∧ t.sp.toNat = s.sp.toNat + 1 ∧
      t.pc = s.pc + 2 ∧ KeepsExcept [i, 7] [] s t ∧ StatusSame s t)

/-- R151 for `POP R7`: the popped byte, incremented, becomes `SP`; it faults if that byte is 255
(the pseudocode's reading, log entry 10). -/
def Obligations.PopIntoTheStackPointer : Prop :=
  ∀ s : State, s.pc + 1 ≤ 255 →
    (s.mem.readAt s.sp.toNat = 255 → exec (.pop 7) s = raise .outOfRange 256 s) ∧
    (s.mem.readAt s.sp.toNat ≠ 255 → ∃ t, exec (.pop 7) s = .next t ∧
      t.sp.toNat = (s.mem.readAt s.sp.toNat).toNat + 1 ∧
      t.pc = s.pc + 2 ∧ KeepsExcept [7] [] s t ∧ StatusSame s t)

/-- R152, but for the opcode byte (decision D9): the stack pointer is checked before the return address;
`CALL R7` jumps to the decremented `SP`. -/
def Obligations.CallPushesTheReturnAddress : Prop :=
  ∀ a : Byte, OperandFaults (.call a) ∧
  ∀ (i : RegIx) (s : State), a.toNat = i.val → s.pc + 1 ≤ 255 →
    (s.sp = 0 → exec (.call a) s = raise .outOfRange (-1) s) ∧
    (s.sp ≠ 0 → s.pc = 254 → exec (.call a) s = raise .outOfRange 256 s) ∧
    (s.sp ≠ 0 → s.pc ≠ 254 → ∃ t, exec (.call a) s = .next t ∧
      t.sp.toNat = s.sp.toNat - 1 ∧
      (t.mem.readAt (s.sp - 1).toNat).toNat = s.pc + 2 ∧
      t.pc = (if i = 7 then (s.sp - 1).toNat else (s.reg i).toNat) ∧
      KeepsExcept [7] [(s.sp - 1).toNat] s t ∧ StatusSame s t)

/-- R153, but for the opcode byte (decision D9). A fetched RET has no fault but that of its stack pointer. The one fault
`OperandFaults` gives it, for a program counter beyond 255, is the fetch's (R82), which `exec` repeats by the model's
choice (log entry 4). -/
def Obligations.RetPopsTheProgramCounter : Prop :=
  OperandFaults .ret ∧
  ∀ s : State, s.pc ≤ 255 →
    (s.sp = 255 → exec .ret s = raise .outOfRange 256 s) ∧
    (s.sp ≠ 255 → ∃ t, exec .ret s = .next t ∧
      t.pc = (s.mem.readAt s.sp.toNat).toNat ∧ t.sp.toNat = s.sp.toNat + 1 ∧
      KeepsExcept [7] [] s t ∧ StatusSame s t)

/-- R155 (a): what is pushed is what is popped, and `SP` comes back, for any two registers other than 7, the same one among them. -/
def Obligations.StackRoundTrip : Prop :=
  ∀ (a b : Byte) (i j : RegIx) (s : State), a.toNat = i.val → b.toNat = j.val →
    i ≠ 7 → j ≠ 7 → s.sp ≠ 0 → s.pc + 3 ≤ 255 →
    ∃ u t, exec (.push a) s = .next u ∧ exec (.pop b) u = .next t ∧
      t.reg j = s.reg i ∧ t.sp = s.sp ∧ KeepsExcept [j] [(s.sp - 1).toNat] s t

/-- R155 (b): a RET resumes after the CALL and restores `SP`, whatever ran in between, if `SP` and the cell
at `SP` are as the CALL left them. -/
def Obligations.CallReturnSymmetry : Prop :=
  ∀ (a : Byte) (i : RegIx) (s : State), a.toNat = i.val → s.pc + 2 ≤ 255 → s.sp ≠ 0 →
    ∃ u, exec (.call a) s = .next u ∧
      ∀ u' : State, u'.pc ≤ 255 → u'.sp = u.sp →
        u'.mem.readAt u.sp.toNat = u.mem.readAt u.sp.toNat →
        ∃ t, exec .ret u' = .next t ∧ t.pc = s.pc + 2 ∧ t.sp = s.sp

/-! ### Memory and the host -/

/-- R50 (c), R25: a read gives the last byte written to that cell, and no other cell is changed. Under the canonical
form (the model's, log entry 9), which a write keeps, equal contents are equal memories, so that writing back what a
cell holds changes nothing. -/
def Obligations.MemoryIsItsContents : Prop :=
  (∀ (m : Memory) (k k' : Nat) (v : Byte),
    (m.writeAt k v).readAt k' = if k' = k then v else m.readAt k') ∧
  (∀ (m : Memory) (k : Nat) (v : Byte), m.wf → k < 256 → (m.writeAt k v).wf) ∧
  (∀ m m' : Memory, m.wf → m'.wf → (∀ k, m.readAt k = m'.readAt k) → m = m') ∧
  (∀ (m : Memory) (k : Nat), m.wf → k < 256 → m.writeAt k (m.readAt k) = m)

/-- R52: a byte stored by one step is the opcode the very next fetch reads. -/
def Obligations.StoreIsSeenByTheNextFetch : Prop :=
  ∀ (a : Byte) (i : RegIx) (s t : State), a.toNat = i.val → i ≠ 7 →
    s.sp.toNat = s.pc + 3 → exec (.push a) s = .next t →
    t.window.head? = some (s.reg i)

/-- R28, R202: the load port, open before the first step after reset only, copies the words to consecutive cells from
`origin` and changes nothing else; a load that does not fit, or comes after a step, is refused. The launch state of a
program is the reset state with its words copied in. That the host's session holds the phase is the model's choice
(log entry 7), the canonical form a load keeps is the model's (log entry 9), the time and the fit are decision D20. -/
def Obligations.LoadWritesMemoryOnly : Prop :=
  (∀ (h : Session) (words : List Byte) (origin : Nat),
    (h.stepped = true → h.load words origin = none) ∧
    (256 < origin + words.length → h.load words origin = none) ∧
    (h.stepped = false → origin + words.length ≤ 256 → ∃ t, h.load words origin = some t ∧
      t.stepped = false ∧
      (∀ k (hk : k < words.length), t.unit.mem.readAt (origin + k) = words[k]) ∧
      (∀ k, k < origin ∨ origin + words.length ≤ k → t.unit.mem.readAt k = h.unit.mem.readAt k) ∧
      t.unit = { h.unit with mem := t.unit.mem } ∧ (h.unit.mem.wf → t.unit.mem.wf))) ∧
  (∀ (words : List Byte) (origin : Nat), origin + words.length ≤ 256 →
    ∃ s, launch words origin = some s ∧
      (∀ k (hk : k < words.length), s.mem.readAt (origin + k) = words[k]) ∧
      (∀ k, k < origin ∨ origin + words.length ≤ k → s.mem.readAt k = 0) ∧
      s = { State.reset with mem := s.mem })

/-- R31: the status outputs and the 2-bit fault codes (the spec's decision D8, log entry 3). -/
def Obligations.StatusOutputsShowTheRecord : Prop :=
  ∀ (s : State) (r : FaultRecord),
    s.statusRunning = s.running ∧
    (s.fault = none → s.statusFaultKind = 0) ∧
    (s.fault = some r →
      (r.kind = .invalidOpcode → s.statusFaultKind = 1) ∧
      (r.kind = .outOfRange → s.statusFaultKind = 2) ∧
      (r.kind = .divideByZero → s.statusFaultKind = 3) ∧
      s.statusFaultPc = some r.pc ∧ s.statusFaultInfo = some r.info)

/-- R28, R33: whatever a host does, with resets in the middle of runs: every session meets the invariant; before the
first step since reset the unit is the reset state but for its memory; once it has taken a step, and so in the middle
of a run and when it is Halted, no load is available; and a step is what closes the port (decision D20, log entry 7). -/
def Obligations.LoadIsOpenBeforeTheFirstStepOnly : Prop :=
  ∀ h : Session, SessionReaches h →
    h.unit.Inv ∧
    (h.stepped = false → h.unit = { State.reset with mem := h.unit.mem }) ∧
    (h.stepped = true ∨ h.unit.running = false ∨ h.unit.out ≠ [] →
      ∀ words origin, h.after (.load words origin) = none) ∧
    (∀ h', h.after .step = some h' → h'.stepped = true)
end

