-- ==== Sys2Proof/Laws/Alu.lean ====
section
/-! SUPPORT. The numbers the ALU functions and the checked stack updates compute. -/

namespace Sys2Proof.Machine

/-- Reduction modulo 256 (R9, R110). -/
theorem narrow_toNat (n : Int) : ((narrow n).toNat : Int) = n % 256 := by
  rw [narrow, BitVec.toNat_ofInt, Int.toNat_of_nonneg (Int.emod_nonneg _ (by decide))]
  norm_num

/-- A natural number that fits is kept. -/
theorem narrow_toNat_of_nat (n : Nat) : (narrow n).toNat = n % 256 := by
  have h := narrow_toNat n
  omega

theorem aluMul_toNat (x y : Byte) : (aluMul x y).toNat = (x.toNat * y.toNat) % 256 := by
  have h := narrow_toNat_of_nat (x.toNat * y.toNat)
  push_cast at h
  exact h

theorem aluAdd_toNat (x y : Byte) : (aluAdd x y).toNat = (x.toNat + y.toNat) % 256 := by
  have h := narrow_toNat_of_nat (x.toNat + y.toNat)
  push_cast at h
  exact h

theorem aluSub_toNat (x y : Byte) : ((aluSub x y).toNat : Int) = ((x.toNat : Int) - y.toNat) % 256 :=
  narrow_toNat _

/-- The quotient never exceeds the dividend, so it is not reduced (R113). -/
theorem aluDiv_toNat (x y : Byte) : (aluDiv x y).toNat = x.toNat / y.toNat := by
  have h := narrow_toNat_of_nat (x.toNat / y.toNat)
  push_cast at h
  rw [aluDiv, h, Nat.mod_eq_of_lt]
  exact Nat.lt_of_le_of_lt (Nat.div_le_self _ _) x.isLt

theorem aluMod_toNat (x y : Byte) : (aluMod x y).toNat = x.toNat % y.toNat := by
  have h := narrow_toNat_of_nat (x.toNat % y.toNat)
  push_cast at h
  rw [aluMod, h, Nat.mod_eq_of_lt]
  exact Nat.lt_of_le_of_lt (Nat.mod_le _ _) x.isLt

theorem aluNot_toNat (x : Byte) : (aluNot x).toNat = 255 - x.toNat := by
  have h : aluNot x = ~~~x := by
    rw [aluNot, BitVec.not_def, BitVec.xor_comm]
    rfl
  rw [h, BitVec.toNat_not]

theorem aluShl_toNat (x y : Byte) : (aluShl x y).toNat = (x.toNat * 2 ^ y.toNat) % 256 := by
  have h := narrow_toNat_of_nat (x.toNat * 2 ^ y.toNat)
  push_cast at h
  exact h

theorem aluShr_toNat (x y : Byte) : (aluShr x y).toNat = x.toNat / 2 ^ y.toNat := by
  have h := narrow_toNat_of_nat (x.toNat / 2 ^ y.toNat)
  push_cast at h
  rw [aluShr, h, Nat.mod_eq_of_lt]
  exact Nat.lt_of_le_of_lt (Nat.div_le_self _ _) x.isLt

/-- Decrementing a non-zero stack pointer does not wrap. -/
theorem decrement_toNat {x : Byte} (h : x ≠ 0) : (x - 1).toNat = x.toNat - 1 := by
  have hx : x.toNat ≠ 0 := fun e => h (BitVec.eq_of_toNat_eq e)
  have := x.isLt
  rw [BitVec.toNat_sub]
  simp only [BitVec.ofNat_eq_ofNat, BitVec.toNat_ofNat]
  omega

/-- Incrementing a stack pointer below 255 does not wrap. -/
theorem increment_toNat {n : Nat} (h : n ≤ 255) : (BitVec.ofNat 8 n).toNat = n := by
  rw [BitVec.toNat_ofNat]
  omega

end Sys2Proof.Machine
end

