-- ==== Sys2Proof/Laws/Decode.lean ====
section
/-! SUPPORT. The opcode lookup and the operand bytes, for any opcode table. -/

namespace Sys2Proof

theorem Mnemonic.mem_all (m : Mnemonic) : m ∈ Mnemonic.all := by
  cases m <;> decide

theorem Config.opcode_injective : Function.Injective Config.opcode := by
  intro m n
  cases m <;> cases n <;> decide

/-- What the lookup finds has that byte. -/
theorem OpcodeTable.byte_of_lookup {t : OpcodeTable} {op : Byte} {m : Mnemonic}
    (h : t.lookup op = some m) : t m = op := by
  simpa using List.find?_some h

/-- Under an injective table the lookup of an entry's byte finds the entry. -/
theorem OpcodeTable.lookup_byte {t : OpcodeTable} (ht : Function.Injective t) (m : Mnemonic) :
    t.lookup (t m) = some m := by
  cases h : t.lookup (t m) with
  | none => exact absurd (List.find?_eq_none.1 h m m.mem_all) (by simp)
  | some n => rw [ht (OpcodeTable.byte_of_lookup h)]

/-- The operand bytes of a built instruction are the ones its entry declares. -/
theorem Mnemonic.build_operandBytes (m : Mnemonic) (a b : Byte) :
    (m.build a b).operandBytes = [a, b].take m.operandCount := by
  cases m <;> rfl

@[simp] theorem Mnemonic.build_mnemonic (m : Mnemonic) (a b : Byte) : (m.build a b).mnemonic = m := by
  cases m <;> rfl

/-- Every instruction is its entry built from its operand bytes. -/
theorem Instr.eq_build (i : Instr) :
    i = i.mnemonic.build (i.operandBytes.getD 0 0) (i.operandBytes.getD 1 0) := by
  cases i <;> rfl

/-- Which operand bytes of a built instruction are register indices, by format (R61). -/
theorem Mnemonic.build_registerOperands (m : Mnemonic) (a b : Byte) :
    (m.build a b).registerOperands =
      match m.format with
      | .Z => []
      | .R => [a]
      | .RR => [a, b]
      | .RI => [a] := by
  cases m <;> rfl

theorem Mnemonic.operandCount_le (m : Mnemonic) : m.operandCount ≤ 2 := by
  cases m <;> decide

/-- Taking the operand bytes succeeds exactly when enough bytes are there. -/
theorem Mnemonic.takeOperands_of_le {m : Mnemonic} {bytes : List Byte} (h : m.operandCount ≤ bytes.length) :
    m.takeOperands bytes =
      some (m.build (bytes.getD 0 0) (bytes.getD 1 0), bytes.drop m.operandCount) := by
  cases m <;> (first | rfl | skip)
  all_goals
    rcases bytes with _ | ⟨a, _ | ⟨b, rest⟩⟩ <;>
      first | rfl | exact absurd h (by simp [Mnemonic.operandCount, Mnemonic.format, Format.operandCount])

theorem Mnemonic.takeOperands_of_lt {m : Mnemonic} {bytes : List Byte} (h : bytes.length < m.operandCount) :
    m.takeOperands bytes = none := by
  cases m <;>
    rcases bytes with _ | ⟨a, _ | ⟨b, rest⟩⟩ <;>
      first
        | rfl
        | exact absurd h (by simp [Mnemonic.operandCount, Mnemonic.format, Format.operandCount])

/-- Everything the decoder can answer on a non-empty byte string. -/
theorem decodeWith_cons (t : OpcodeTable) (op : Byte) (bytes : List Byte) :
    decodeWith t (op :: bytes) =
      match t.lookup op with
      | none => .error (.invalidOpcode op)
      | some m =>
        if m.operandCount ≤ bytes.length then
          .ok (m.build (bytes.getD 0 0) (bytes.getD 1 0), bytes.drop m.operandCount)
        else .error (.truncated m) := by
  rw [decodeWith]
  cases t.lookup op with
  | none => rfl
  | some m =>
    by_cases h : m.operandCount ≤ bytes.length
    · simp only [Mnemonic.takeOperands_of_le h, if_pos h]
    · simp only [Mnemonic.takeOperands_of_lt (Nat.lt_of_not_le h), if_neg h]

end Sys2Proof
end

