-- ==== Sys2Proof/Laws/State.lean ====
section
/-! SUPPORT. One lemma per field per update of State, so that no proof unfolds a record update, and the
read-after-write lemmas of the register file. -/

namespace Sys2Proof.Machine

@[simp] theorem State.setReg_pc (s : State) (i : RegIx) (v : Byte) : (s.setReg i v).pc = s.pc := rfl
@[simp] theorem State.setReg_mem (s : State) (i : RegIx) (v : Byte) : (s.setReg i v).mem = s.mem := rfl
@[simp] theorem State.setReg_running (s : State) (i : RegIx) (v : Byte) : (s.setReg i v).running = s.running := rfl
@[simp] theorem State.setReg_fault (s : State) (i : RegIx) (v : Byte) : (s.setReg i v).fault = s.fault := rfl
@[simp] theorem State.setReg_out (s : State) (i : RegIx) (v : Byte) : (s.setReg i v).out = s.out := rfl
@[simp] theorem State.setReg_regs (s : State) (i : RegIx) (v : Byte) : (s.setReg i v).regs = s.regs.set i v := rfl

@[simp] theorem State.memWrite_regs (s : State) (a v : Byte) : (s.memWrite a v).regs = s.regs := rfl
@[simp] theorem State.memWrite_pc (s : State) (a v : Byte) : (s.memWrite a v).pc = s.pc := rfl
@[simp] theorem State.memWrite_running (s : State) (a v : Byte) : (s.memWrite a v).running = s.running := rfl
@[simp] theorem State.memWrite_fault (s : State) (a v : Byte) : (s.memWrite a v).fault = s.fault := rfl
@[simp] theorem State.memWrite_out (s : State) (a v : Byte) : (s.memWrite a v).out = s.out := rfl
@[simp] theorem State.memWrite_mem (s : State) (a v : Byte) : (s.memWrite a v).mem = s.mem.writeAt a.toNat v := rfl

@[simp] theorem State.advance_regs (s : State) (n : Nat) : (s.advance n).regs = s.regs := rfl
@[simp] theorem State.advance_mem (s : State) (n : Nat) : (s.advance n).mem = s.mem := rfl
@[simp] theorem State.advance_running (s : State) (n : Nat) : (s.advance n).running = s.running := rfl
@[simp] theorem State.advance_fault (s : State) (n : Nat) : (s.advance n).fault = s.fault := rfl
@[simp] theorem State.advance_out (s : State) (n : Nat) : (s.advance n).out = s.out := rfl
@[simp] theorem State.advance_pc (s : State) (n : Nat) : (s.advance n).pc = s.pc + n := rfl

@[simp] theorem State.jumpTo_regs (s : State) (a : Byte) : (s.jumpTo a).regs = s.regs := rfl
@[simp] theorem State.jumpTo_mem (s : State) (a : Byte) : (s.jumpTo a).mem = s.mem := rfl
@[simp] theorem State.jumpTo_running (s : State) (a : Byte) : (s.jumpTo a).running = s.running := rfl
@[simp] theorem State.jumpTo_fault (s : State) (a : Byte) : (s.jumpTo a).fault = s.fault := rfl
@[simp] theorem State.jumpTo_out (s : State) (a : Byte) : (s.jumpTo a).out = s.out := rfl
@[simp] theorem State.jumpTo_pc (s : State) (a : Byte) : (s.jumpTo a).pc = a.toNat := rfl

@[simp] theorem State.emit_regs (s : State) (v : Byte) : (s.emit v).regs = s.regs := rfl
@[simp] theorem State.emit_pc (s : State) (v : Byte) : (s.emit v).pc = s.pc := rfl
@[simp] theorem State.emit_mem (s : State) (v : Byte) : (s.emit v).mem = s.mem := rfl
@[simp] theorem State.emit_running (s : State) (v : Byte) : (s.emit v).running = s.running := rfl
@[simp] theorem State.emit_fault (s : State) (v : Byte) : (s.emit v).fault = s.fault := rfl
@[simp] theorem State.emit_out (s : State) (v : Byte) : (s.emit v).out = s.out ++ [v] := rfl

@[simp] theorem State.halt_regs (s : State) : (s.halt).regs = s.regs := rfl
@[simp] theorem State.halt_pc (s : State) : (s.halt).pc = s.pc := rfl
@[simp] theorem State.halt_mem (s : State) : (s.halt).mem = s.mem := rfl
@[simp] theorem State.halt_fault (s : State) : (s.halt).fault = s.fault := rfl
@[simp] theorem State.halt_out (s : State) : (s.halt).out = s.out := rfl
@[simp] theorem State.halt_running (s : State) : s.halt.running = false := rfl

@[simp] theorem State.raised_regs (s : State) (k : FaultKind) (n : Int) : (s.raised k n).regs = s.regs := rfl
@[simp] theorem State.raised_pc (s : State) (k : FaultKind) (n : Int) : (s.raised k n).pc = s.pc := rfl
@[simp] theorem State.raised_mem (s : State) (k : FaultKind) (n : Int) : (s.raised k n).mem = s.mem := rfl
@[simp] theorem State.raised_out (s : State) (k : FaultKind) (n : Int) : (s.raised k n).out = s.out := rfl
@[simp] theorem State.raised_running (s : State) (k : FaultKind) (n : Int) : (s.raised k n).running = false := rfl
@[simp] theorem State.raised_fault (s : State) (k : FaultKind) (n : Int) :
    (s.raised k n).fault = some { kind := k, pc := s.pc, info := n } := rfl

/-! ### Register reads after an update -/

@[simp] theorem State.memWrite_reg (s : State) (a v : Byte) (r : RegIx) : (s.memWrite a v).reg r = s.reg r := rfl
@[simp] theorem State.advance_reg (s : State) (n : Nat) (r : RegIx) : (s.advance n).reg r = s.reg r := rfl
@[simp] theorem State.jumpTo_reg (s : State) (a : Byte) (r : RegIx) : (s.jumpTo a).reg r = s.reg r := rfl
@[simp] theorem State.emit_reg (s : State) (v : Byte) (r : RegIx) : (s.emit v).reg r = s.reg r := rfl
@[simp] theorem State.halt_reg (s : State) (r : RegIx) : (s.halt).reg r = s.reg r := rfl
@[simp] theorem State.raised_reg (s : State) (k : FaultKind) (n : Int) (r : RegIx) : (s.raised k n).reg r = s.reg r := rfl

theorem State.setReg_reg (s : State) (i : RegIx) (v : Byte) (r : RegIx) :
    (s.setReg i v).reg r = if r = i then v else s.reg r := by
  simp only [State.reg, State.setReg_regs, Fin.getElem_fin, Vector.getElem_set, Fin.ext_iff, eq_comm]

@[simp] theorem State.setReg_reg_self (s : State) (i : RegIx) (v : Byte) : (s.setReg i v).reg i = v := by
  simp [State.setReg_reg]

theorem State.setReg_reg_of_ne (s : State) (i : RegIx) (v : Byte) {r : RegIx} (h : r ≠ i) :
    (s.setReg i v).reg r = s.reg r := by
  simp [State.setReg_reg, h]

theorem State.sp_eq (s : State) : s.sp = s.reg 7 := rfl

@[simp] theorem State.setReg_sp (s : State) (v : Byte) : (s.setReg 7 v).sp = v :=
  State.setReg_reg_self s 7 v

theorem State.fl_eq (s : State) : s.fl = s.reg 5 := rfl

end Sys2Proof.Machine
end

