-- ==== Sys2Proof/Laws/Operands.lean ====
section
/-! SUPPORT. What the operand checks and the four formats answer, so that no later proof unfolds them. -/

namespace Sys2Proof.Machine

theorem registerIndex_eq_some {b : Byte} {i : RegIx} : registerIndex b = some i ↔ b.toNat = i.val := by
  unfold registerIndex
  split
  · simp [Fin.ext_iff]
  · simp only [reduceCtorEq, false_iff]
    omega

theorem registerIndex_eq_none {b : Byte} : registerIndex b = none ↔ 8 ≤ b.toNat := by
  unfold registerIndex
  split <;> simp <;> omega

/-- A register operand names a register or is 8 or more, never both (R64). -/
theorem registerIndex_cases (b : Byte) : (∃ i : RegIx, b.toNat = i.val) ∨ 8 ≤ b.toNat := by
  by_cases h : b.toNat < 8
  · exact .inl ⟨⟨b.toNat, h⟩, rfl⟩
  · exact .inr (by omega)

theorem withRegister_ok {b : Byte} {i : RegIx} (h : b.toNat = i.val) (s : State) (k : RegIx → Result) :
    withRegister b s k = k i := by
  simp [withRegister, registerIndex_eq_some.2 h]

theorem withRegister_bad {b : Byte} (h : 8 ≤ b.toNat) (s : State) (k : RegIx → Result) :
    withRegister b s k = raise .outOfRange b.toNat s := by
  simp [withRegister, registerIndex_eq_none.2 h]

theorem withOperandSpace_ok {n : Nat} {s : State} (h : s.pc + n ≤ 255) (k : Result) :
    withOperandSpace n s k = k := by
  simp only [withOperandSpace, if_neg (Nat.not_lt.2 h)]

theorem withOperandSpace_bad {n : Nat} {s : State} (h : 255 < s.pc + n) (k : Result) :
    withOperandSpace n s k = raise .outOfRange 256 s := by
  simp only [withOperandSpace, if_pos h]

theorem formZ_ok {s : State} (h : s.pc ≤ 255) (k : Result) : formZ s k = k :=
  withOperandSpace_ok h k

theorem formR_ok {a : Byte} {i : RegIx} {s : State} (ha : a.toNat = i.val) (h : s.pc + 1 ≤ 255)
    (k : RegIx → Result) : formR a s k = k i := by
  rw [formR, withOperandSpace_ok h, withRegister_ok ha]

theorem formRR_ok {a b : Byte} {i j : RegIx} {s : State} (ha : a.toNat = i.val) (hb : b.toNat = j.val)
    (h : s.pc + 2 ≤ 255) (k : RegIx → RegIx → Result) : formRR a b s k = k i j := by
  rw [formRR, withOperandSpace_ok h, withRegister_ok ha, withRegister_ok hb]

theorem formRI_ok {a : Byte} {i : RegIx} {s : State} (ha : a.toNat = i.val) (h : s.pc + 2 ≤ 255)
    (k : RegIx → Result) : formRI a s k = k i := by
  rw [formRI, withOperandSpace_ok h, withRegister_ok ha]

/-- The first register operand byte that names no register, as R86 reports it. -/
abbrev firstBad (operands : List Byte) : Option Byte :=
  operands.find? fun b => decide (8 ≤ b.toNat)

theorem firstBad_bad {operands : List Byte} {b : Byte} (h : firstBad operands = some b) :
    b ∈ operands ∧ 8 ≤ b.toNat :=
  ⟨List.mem_of_find?_eq_some h, by simpa using List.find?_some h⟩

theorem formR_bad {a b : Byte} {s : State} (h : s.pc + 1 ≤ 255) (hb : firstBad [a] = some b)
    (k : RegIx → Result) : formR a s k = raise .outOfRange b.toNat s := by
  obtain ⟨hm, h8⟩ := firstBad_bad hb
  obtain rfl : b = a := by simpa using hm
  rw [formR, withOperandSpace_ok h, withRegister_bad h8]

theorem formRI_bad {a b : Byte} {s : State} (h : s.pc + 2 ≤ 255) (hb : firstBad [a] = some b)
    (k : RegIx → Result) : formRI a s k = raise .outOfRange b.toNat s := by
  obtain ⟨hm, h8⟩ := firstBad_bad hb
  obtain rfl : b = a := by simpa using hm
  rw [formRI, withOperandSpace_ok h, withRegister_bad h8]

theorem formRR_bad {a b c : Byte} {s : State} (h : s.pc + 2 ≤ 255) (hc : firstBad [a, b] = some c)
    (k : RegIx → RegIx → Result) : formRR a b s k = raise .outOfRange c.toNat s := by
  rw [formRR, withOperandSpace_ok h]
  rcases registerIndex_cases a with ⟨i, hi⟩ | ha
  · have hlt : ¬ 8 ≤ a.toNat := by omega
    have hb : firstBad [b] = some c := by simpa [firstBad, hlt] using hc
    obtain ⟨hm, h8⟩ := firstBad_bad hb
    obtain rfl : c = b := by simpa using hm
    rw [withRegister_ok hi, withRegister_bad h8]
  · obtain rfl : a = c := by simpa [firstBad, ha] using hc
    rw [withRegister_bad ha]

theorem formZ_cases (s : State) (k : Result) :
    (255 < s.pc + 0 ∧ formZ s k = raise .outOfRange 256 s) ∨ (s.pc + 0 ≤ 255 ∧ formZ s k = k) := by
  rcases Nat.lt_or_ge 255 (s.pc + 0) with h | h
  · exact .inl ⟨h, withOperandSpace_bad h k⟩
  · exact .inr ⟨h, withOperandSpace_ok h k⟩

/-- Everything format `R` can answer. -/
theorem formR_cases (a : Byte) (s : State) (k : RegIx → Result) :
    (255 < s.pc + 1 ∧ formR a s k = raise .outOfRange 256 s) ∨
    (s.pc + 1 ≤ 255 ∧ ∃ b, firstBad [a] = some b ∧ formR a s k = raise .outOfRange b.toNat s) ∨
    (s.pc + 1 ≤ 255 ∧ ∃ i : RegIx, a.toNat = i.val ∧ formR a s k = k i) := by
  rcases Nat.lt_or_ge 255 (s.pc + 1) with h | h
  · exact .inl ⟨h, withOperandSpace_bad h _⟩
  rcases registerIndex_cases a with ⟨i, hi⟩ | ha
  · exact .inr (.inr ⟨h, i, hi, formR_ok hi h k⟩)
  · refine .inr (.inl ⟨h, a, by simp [ha], ?_⟩)
    rw [formR, withOperandSpace_ok h, withRegister_bad ha]

/-- Everything format `RI` can answer. -/
theorem formRI_cases (a : Byte) (s : State) (k : RegIx → Result) :
    (255 < s.pc + 2 ∧ formRI a s k = raise .outOfRange 256 s) ∨
    (s.pc + 2 ≤ 255 ∧ ∃ b, firstBad [a] = some b ∧ formRI a s k = raise .outOfRange b.toNat s) ∨
    (s.pc + 2 ≤ 255 ∧ ∃ i : RegIx, a.toNat = i.val ∧ formRI a s k = k i) := by
  rcases Nat.lt_or_ge 255 (s.pc + 2) with h | h
  · exact .inl ⟨h, withOperandSpace_bad h _⟩
  rcases registerIndex_cases a with ⟨i, hi⟩ | ha
  · exact .inr (.inr ⟨h, i, hi, formRI_ok hi h k⟩)
  · refine .inr (.inl ⟨h, a, by simp [ha], ?_⟩)
    rw [formRI, withOperandSpace_ok h, withRegister_bad ha]

/-- Everything format `RR` can answer. -/
theorem formRR_cases (a b : Byte) (s : State) (k : RegIx → RegIx → Result) :
    (255 < s.pc + 2 ∧ formRR a b s k = raise .outOfRange 256 s) ∨
    (s.pc + 2 ≤ 255 ∧ ∃ c, firstBad [a, b] = some c ∧ formRR a b s k = raise .outOfRange c.toNat s) ∨
    (s.pc + 2 ≤ 255 ∧ ∃ i j : RegIx, a.toNat = i.val ∧ b.toNat = j.val ∧ formRR a b s k = k i j) := by
  rcases Nat.lt_or_ge 255 (s.pc + 2) with h | h
  · exact .inl ⟨h, withOperandSpace_bad h _⟩
  rcases registerIndex_cases a with ⟨i, hi⟩ | ha
  · rcases registerIndex_cases b with ⟨j, hj⟩ | hb
    · exact .inr (.inr ⟨h, i, j, hi, hj, formRR_ok hi hj h k⟩)
    · refine .inr (.inl ⟨h, b, ?_, ?_⟩)
      · have : ¬ 8 ≤ a.toNat := by omega
        simp [firstBad, this, hb]
      · rw [formRR, withOperandSpace_ok h, withRegister_ok hi, withRegister_bad hb]
  · refine .inr (.inl ⟨h, a, by simp [ha], ?_⟩)
    rw [formRR, withOperandSpace_ok h, withRegister_bad ha]

end Sys2Proof.Machine
end

