-- ==== Sys2Proof/Laws/Exec.lean ====
section
/-! SUPPORT. Everything `exec` can answer, said once: `Raises` lists the faults of each instruction with
their conditions, `Does` lists the state each instruction leaves otherwise, and `exec_cases` says there is no third outcome. -/

namespace Sys2Proof.Machine

/-- The faults instruction `f` raises in state `s` (the table of R175, with the conditions of R172 and R173). -/
inductive Raises (s : State) : Instr → FaultKind → Int → Prop
  | space {f} : 255 < s.pc + f.operandCount → Raises s f .outOfRange 256
  | index {f b} : s.pc + f.operandCount ≤ 255 → firstBad f.registerOperands = some b →
      Raises s f .outOfRange b.toNat
  | divisor {f a b} {i j : RegIx} : (f = .div a b ∨ f = .mod a b) → s.pc + 2 ≤ 255 →
      a.toNat = i.val → b.toNat = j.val → s.reg j = 0 → Raises s f .divideByZero j.val
  | decrement {f a} {i : RegIx} : (f = .push a ∨ f = .call a) → s.pc + 1 ≤ 255 → a.toNat = i.val →
      s.sp = 0 → Raises s f .outOfRange (-1)
  | returnAddress {a} {i : RegIx} : s.pc + 1 ≤ 255 → a.toNat = i.val → s.sp ≠ 0 → 255 < s.pc + 2 →
      Raises s (.call a) .outOfRange 256
  | popIncrement {a} {i : RegIx} : s.pc + 1 ≤ 255 → a.toNat = i.val → i ≠ 7 → 255 < s.sp.toNat + 1 →
      Raises s (.pop a) .outOfRange 256
  | popSpIncrement {a} : s.pc + 1 ≤ 255 → a.toNat = 7 → 255 < (s.memRead s.sp).toNat + 1 →
      Raises s (.pop a) .outOfRange 256
  | retIncrement : s.pc ≤ 255 → 255 < s.sp.toNat + 1 → Raises s .ret .outOfRange 256

/-- The state instruction `f` leaves in state `s` when it raises nothing, with the conditions under which it does. -/
inductive Does (s : State) : Instr → State → Prop
  | hlt : s.pc ≤ 255 → Does s .hlt (s.halt.advance 1)
  | ldi {a b} {i : RegIx} : s.pc + 2 ≤ 255 → a.toNat = i.val →
      Does s (.ldi a b) ((s.setReg i b).advance 3)
  | prn {a} {i : RegIx} : s.pc + 1 ≤ 255 → a.toNat = i.val →
      Does s (.prn a) ((s.emit (s.reg i)).advance 2)
  | mul {a b} {i j : RegIx} : s.pc + 2 ≤ 255 → a.toNat = i.val → b.toNat = j.val →
      Does s (.mul a b) ((s.setReg i (aluMul (s.reg i) (s.reg j))).advance 3)
  | add {a b} {i j : RegIx} : s.pc + 2 ≤ 255 → a.toNat = i.val → b.toNat = j.val →
      Does s (.add a b) ((s.setReg i (aluAdd (s.reg i) (s.reg j))).advance 3)
  | sub {a b} {i j : RegIx} : s.pc + 2 ≤ 255 → a.toNat = i.val → b.toNat = j.val →
      Does s (.sub a b) ((s.setReg i (aluSub (s.reg i) (s.reg j))).advance 3)
  | div {a b} {i j : RegIx} : s.pc + 2 ≤ 255 → a.toNat = i.val → b.toNat = j.val → s.reg j ≠ 0 →
      Does s (.div a b) ((s.setReg i (aluDiv (s.reg i) (s.reg j))).advance 3)
  | mod {a b} {i j : RegIx} : s.pc + 2 ≤ 255 → a.toNat = i.val → b.toNat = j.val → s.reg j ≠ 0 →
      Does s (.mod a b) ((s.setReg i (aluMod (s.reg i) (s.reg j))).advance 3)
  | and {a b} {i j : RegIx} : s.pc + 2 ≤ 255 → a.toNat = i.val → b.toNat = j.val →
      Does s (.and a b) ((s.setReg i (s.reg i &&& s.reg j)).advance 3)
  | or {a b} {i j : RegIx} : s.pc + 2 ≤ 255 → a.toNat = i.val → b.toNat = j.val →
      Does s (.or a b) ((s.setReg i (s.reg i ||| s.reg j)).advance 3)
  | xor {a b} {i j : RegIx} : s.pc + 2 ≤ 255 → a.toNat = i.val → b.toNat = j.val →
      Does s (.xor a b) ((s.setReg i (s.reg i ^^^ s.reg j)).advance 3)
  | shl {a b} {i j : RegIx} : s.pc + 2 ≤ 255 → a.toNat = i.val → b.toNat = j.val →
      Does s (.shl a b) ((s.setReg i (aluShl (s.reg i) (s.reg j))).advance 3)
  | shr {a b} {i j : RegIx} : s.pc + 2 ≤ 255 → a.toNat = i.val → b.toNat = j.val →
      Does s (.shr a b) ((s.setReg i (aluShr (s.reg i) (s.reg j))).advance 3)
  | not {a} {i : RegIx} : s.pc + 1 ≤ 255 → a.toNat = i.val →
      Does s (.not a) ((s.setReg i (aluNot (s.reg i))).advance 2)
  | addi {a b} {i : RegIx} : s.pc + 2 ≤ 255 → a.toNat = i.val →
      Does s (.addi a b) ((s.setReg i (aluAdd (s.reg i) b)).advance 3)
  | cmp {a b} {i j : RegIx} : s.pc + 2 ≤ 255 → a.toNat = i.val → b.toNat = j.val →
      Does s (.cmp a b) ((s.setReg 5 (compareFlags (s.reg i) (s.reg j))).advance 3)
  | jmp {a} {i : RegIx} : s.pc + 1 ≤ 255 → a.toNat = i.val → Does s (.jmp a) (s.jumpTo (s.reg i))
  | jeq {a} {i : RegIx} : s.pc + 1 ≤ 255 → a.toNat = i.val →
      Does s (.jeq a) (if s.flagE = true then s.jumpTo (s.reg i) else s.advance 2)
  | jne {a} {i : RegIx} : s.pc + 1 ≤ 255 → a.toNat = i.val →
      Does s (.jne a) (if s.flagE = true then s.advance 2 else s.jumpTo (s.reg i))
  | push {a} {i : RegIx} : s.pc + 1 ≤ 255 → a.toNat = i.val → s.sp ≠ 0 →
      Does s (.push a)
        (((s.setReg 7 (s.sp - 1)).memWrite (s.sp - 1) ((s.setReg 7 (s.sp - 1)).reg i)).advance 2)
  | pop {a} {i : RegIx} : s.pc + 1 ≤ 255 → a.toNat = i.val → i ≠ 7 → s.sp.toNat + 1 ≤ 255 →
      Does s (.pop a)
        (((s.setReg i (s.memRead s.sp)).setReg 7 (BitVec.ofNat 8 (s.sp.toNat + 1))).advance 2)
  | popSp {a} : s.pc + 1 ≤ 255 → a.toNat = 7 → (s.memRead s.sp).toNat + 1 ≤ 255 →
      Does s (.pop a)
        (((s.setReg 7 (s.memRead s.sp)).setReg 7
          (BitVec.ofNat 8 ((s.memRead s.sp).toNat + 1))).advance 2)
  | call {a} {i : RegIx} : s.pc + 2 ≤ 255 → a.toNat = i.val → s.sp ≠ 0 →
      Does s (.call a)
        (((s.setReg 7 (s.sp - 1)).memWrite (s.sp - 1) (BitVec.ofNat 8 (s.pc + 2))).jumpTo
          ((s.setReg 7 (s.sp - 1)).reg i))
  | ret : s.pc ≤ 255 → s.sp.toNat + 1 ≤ 255 →
      Does s .ret ((s.setReg 7 (BitVec.ofNat 8 (s.sp.toNat + 1))).jumpTo (s.memRead s.sp))

/-- One answer of an instruction: a fault of `Raises`, or a state of `Does`. -/
def Answers (f : Instr) (s : State) (r : Result) : Prop :=
  (∃ kind info, Raises s f kind info ∧ r = raise kind info s) ∨ ∃ t, Does s f t ∧ r = .next t

/-! ### The shared shapes -/

theorem answers_formZ {f : Instr} {s : State} {k : Result} (hn : f.operandCount = 0)
    (hk : s.pc ≤ 255 → Answers f s k) : Answers f s (formZ s k) := by
  rcases formZ_cases s k with ⟨h, e⟩ | ⟨h, e⟩
  · exact .inl ⟨_, _, .space (by rw [hn]; exact h), e⟩
  · rw [e]
    exact hk h

theorem answers_formR {f : Instr} {a : Byte} {s : State} {k : RegIx → Result} (hn : f.operandCount = 1)
    (hr : f.registerOperands = [a])
    (hk : ∀ i : RegIx, s.pc + 1 ≤ 255 → a.toNat = i.val → Answers f s (k i)) :
    Answers f s (formR a s k) := by
  rcases formR_cases a s k with ⟨h, e⟩ | ⟨h, b, hb, e⟩ | ⟨h, i, hi, e⟩
  · exact .inl ⟨_, _, .space (by rw [hn]; exact h), e⟩
  · exact .inl ⟨_, _, .index (by rw [hn]; exact h) (by rw [hr]; exact hb), e⟩
  · rw [e]
    exact hk i h hi

theorem answers_formRI {f : Instr} {a : Byte} {s : State} {k : RegIx → Result} (hn : f.operandCount = 2)
    (hr : f.registerOperands = [a])
    (hk : ∀ i : RegIx, s.pc + 2 ≤ 255 → a.toNat = i.val → Answers f s (k i)) :
    Answers f s (formRI a s k) := by
  rcases formRI_cases a s k with ⟨h, e⟩ | ⟨h, b, hb, e⟩ | ⟨h, i, hi, e⟩
  · exact .inl ⟨_, _, .space (by rw [hn]; exact h), e⟩
  · exact .inl ⟨_, _, .index (by rw [hn]; exact h) (by rw [hr]; exact hb), e⟩
  · rw [e]
    exact hk i h hi

theorem answers_formRR {f : Instr} {a b : Byte} {s : State} {k : RegIx → RegIx → Result}
    (hn : f.operandCount = 2) (hr : f.registerOperands = [a, b])
    (hk : ∀ i j : RegIx, s.pc + 2 ≤ 255 → a.toNat = i.val → b.toNat = j.val → Answers f s (k i j)) :
    Answers f s (formRR a b s k) := by
  rcases formRR_cases a b s k with ⟨h, e⟩ | ⟨h, c, hc, e⟩ | ⟨h, i, j, hi, hj, e⟩
  · exact .inl ⟨_, _, .space (by rw [hn]; exact h), e⟩
  · exact .inl ⟨_, _, .index (by rw [hn]; exact h) (by rw [hr]; exact hc), e⟩
  · rw [e]
    exact hk i j h hi hj

theorem answers_withDecrementedSP {f : Instr} {a : Byte} {i : RegIx} {s : State} {k : State → Result}
    (hf : f = .push a ∨ f = .call a) (h : s.pc + 1 ≤ 255) (ha : a.toNat = i.val)
    (hk : s.sp ≠ 0 → Answers f s (k (s.setReg 7 (s.sp - 1)))) :
    Answers f s (withDecrementedSP s k) := by
  unfold withDecrementedSP
  split
  · exact .inl ⟨_, _, .decrement hf h ha ‹_›, rfl⟩
  · exact hk ‹_›

theorem answers_withAddressByte {f : Instr} {n : Nat} {s : State} {k : Byte → Result}
    (hr : 255 < n → Raises s f .outOfRange 256)
    (hk : n ≤ 255 → Answers f s (k (BitVec.ofNat 8 n))) :
    Answers f s (withAddressByte n s k) := by
  unfold withAddressByte
  split
  · exact .inl ⟨_, _, hr ‹_›, rfl⟩
  · exact hk (by omega)

theorem answers_aluRR {f : Instr} {g : Byte → Byte → Byte} {a b : Byte} {s : State}
    (hn : f.operandCount = 2) (hr : f.registerOperands = [a, b])
    (hd : ∀ i j : RegIx, s.pc + 2 ≤ 255 → a.toNat = i.val → b.toNat = j.val →
      Does s f ((s.setReg i (g (s.reg i) (s.reg j))).advance 3)) :
    Answers f s (aluRR g a b s) :=
  answers_formRR hn hr fun i j h hi hj => .inr ⟨_, hd i j h hi hj, rfl⟩

theorem answers_aluDivRR {f : Instr} {g : Byte → Byte → Byte} {a b : Byte} {s : State}
    (hf : f = .div a b ∨ f = .mod a b)
    (hd : ∀ i j : RegIx, s.pc + 2 ≤ 255 → a.toNat = i.val → b.toNat = j.val → s.reg j ≠ 0 →
      Does s f ((s.setReg i (g (s.reg i) (s.reg j))).advance 3)) :
    Answers f s (aluDivRR g a b s) := by
  refine answers_formRR (by rcases hf with rfl | rfl <;> rfl) (by rcases hf with rfl | rfl <;> rfl)
    fun i j h hi hj => ?_
  split
  · exact .inl ⟨_, _, .divisor hf h hi hj ‹_›, rfl⟩
  · exact .inr ⟨_, hd i j h hi hj ‹_›, rfl⟩

theorem answers_jumpIf {f : Instr} {a : Byte} {taken : Bool} {s : State} (hn : f.operandCount = 1)
    (hr : f.registerOperands = [a])
    (hd : ∀ i : RegIx, s.pc + 1 ≤ 255 → a.toNat = i.val →
      Does s f (if taken = true then s.jumpTo (s.reg i) else s.advance 2)) :
    Answers f s (jumpIf taken a s) :=
  answers_formR hn hr fun i h hi => .inr ⟨_, hd i h hi, rfl⟩

theorem jump_negated (c : Bool) (t u : State) :
    (if (!c) = true then t else u) = if c = true then u else t := by
  cases c <;> rfl

theorem answers_execPop (a : Byte) (s : State) : Answers (.pop a) s (execPop a s) := by
  refine answers_formR rfl rfl fun i h hi => ?_
  by_cases h7 : i = 7
  · subst h7
    exact answers_withAddressByte (fun hn => .popSpIncrement h hi hn)
      fun hn => .inr ⟨_, .popSp h hi hn, rfl⟩
  · have e : (if i = Config.spIndex then s.memRead s.sp else s.sp) = s.sp := if_neg h7
    simp only [e]
    exact answers_withAddressByte (fun hn => .popIncrement h hi h7 hn)
      fun hn => .inr ⟨_, .pop h hi h7 hn, rfl⟩

theorem answers_execCall (a : Byte) (s : State) : Answers (.call a) s (execCall a s) :=
  answers_formR rfl rfl fun _ h hi =>
    answers_withDecrementedSP (.inr rfl) h hi fun h0 =>
      answers_withAddressByte (fun hn => .returnAddress h hi h0 hn)
        fun hn => .inr ⟨_, .call hn hi h0, by rw [State.setReg_sp]⟩

/-- The inversion lemma of `exec`: every instruction raises one of its faults or does what it does. -/
theorem exec_cases (f : Instr) (s : State) : Answers f s (exec f s) := by
  cases f with
  | hlt => exact answers_formZ rfl fun h => .inr ⟨_, .hlt h, rfl⟩
  | ldi a b => exact answers_formRI rfl rfl fun i h hi => .inr ⟨_, .ldi h hi, rfl⟩
  | prn a => exact answers_formR rfl rfl fun i h hi => .inr ⟨_, .prn h hi, rfl⟩
  | mul a b => exact answers_aluRR rfl rfl fun _ _ => .mul
  | add a b => exact answers_aluRR rfl rfl fun _ _ => .add
  | sub a b => exact answers_aluRR rfl rfl fun _ _ => .sub
  | div a b => exact answers_aluDivRR (by simp) fun _ _ => .div
  | mod a b => exact answers_aluDivRR (by simp) fun _ _ => .mod
  | and a b => exact answers_aluRR rfl rfl fun _ _ => .and
  | or a b => exact answers_aluRR rfl rfl fun _ _ => .or
  | xor a b => exact answers_aluRR rfl rfl fun _ _ => .xor
  | not a => exact answers_formR rfl rfl fun i h hi => .inr ⟨_, .not h hi, rfl⟩
  | shl a b => exact answers_aluRR rfl rfl fun _ _ => .shl
  | shr a b => exact answers_aluRR rfl rfl fun _ _ => .shr
  | addi a b => exact answers_formRI rfl rfl fun i h hi => .inr ⟨_, .addi h hi, rfl⟩
  | cmp a b => exact answers_formRR rfl rfl fun i j h hi hj => .inr ⟨_, .cmp h hi hj, rfl⟩
  | jmp a => exact answers_jumpIf rfl rfl fun _ => .jmp
  | jeq a => exact answers_jumpIf rfl rfl fun _ => .jeq
  | jne a => exact answers_jumpIf rfl rfl fun i h hi => by rw [jump_negated]; exact .jne h hi
  | push a =>
    exact answers_formR rfl rfl fun i h hi =>
      answers_withDecrementedSP (.inl rfl) h hi fun h0 => .inr ⟨_, .push h hi h0, by rw [State.setReg_sp]⟩
  | pop a => exact answers_execPop a s
  | call a => exact answers_execCall a s
  | ret =>
    exact answers_formZ rfl fun h =>
      answers_withAddressByte (fun hn => .retIncrement h hn) fun hn => .inr ⟨_, .ret h hn, rfl⟩

/-- The same for one next state: it is a fault's state or what the instruction does. -/
theorem exec_next_cases {f : Instr} {s t : State} (h : exec f s = .next t) :
    (∃ kind info, Raises s f kind info ∧ t = s.raised kind info) ∨ Does s f t := by
  rcases exec_cases f s with ⟨kind, info, hr, e⟩ | ⟨u, hd, e⟩
  · rw [h, raise, Host.Outcome.next.injEq] at e
    exact .inl ⟨kind, info, hr, e⟩
  · rw [h, Host.Outcome.next.injEq] at e
    exact .inr (e ▸ hd)

end Sys2Proof.Machine
end

