-- ==== Sys2Proof/Laws/Memory.lean ====
section
/-! SUPPORT. What the memory operations do to a read, and that they keep the canonical form. -/

namespace Sys2Proof.Machine

@[simp] theorem Memory.readAt_nil (k : Nat) : Memory.readAt [] k = 0 := rfl

theorem Memory.readAt_cons (c : Host.Cell) (m : Memory) (k : Nat) :
    Memory.readAt (c :: m) k = if k = c.1 then c.2 else Memory.readAt m k := rfl

/-- An address none of the entries has reads as 0. -/
theorem Memory.readAt_eq_zero_of_absent {m : Memory} {k : Nat} (h : ∀ c ∈ m, c.1 ≠ k) :
    m.readAt k = 0 := by
  induction m with
  | nil => rfl
  | cons c m ih =>
    rw [Memory.readAt_cons, if_neg (fun e => h c (by simp) e.symm)]
    exact ih fun d hd => h d (by simp [hd])

theorem Memory.readAt_eraseAt (m : Memory) (k k' : Nat) :
    (m.eraseAt k).readAt k' = if k' = k then 0 else m.readAt k' := by
  induction m with
  | nil => simp [Memory.eraseAt]
  | cons c m ih =>
    unfold Memory.eraseAt at ih ⊢
    by_cases hc : c.1 = k
    · rw [List.filter_cons_of_neg (by simp [hc]), ih, Memory.readAt_cons]
      by_cases hk : k' = k <;> simp [hk, hc]
    · rw [List.filter_cons_of_pos (by simp [hc]), Memory.readAt_cons, Memory.readAt_cons, ih]
      by_cases hk : k' = c.1
      · simp [hk, hc]
      · simp [hk]

theorem Memory.readAt_insertAt (m : Memory) (k k' : Nat) (v : Byte) :
    (m.insertAt k v).readAt k' = if k' = k then v else m.readAt k' := by
  induction m with
  | nil => rfl
  | cons c m ih =>
    unfold Memory.insertAt
    split
    · rfl
    · split
      · rename_i h
        rw [Memory.readAt_cons, Memory.readAt_cons, ← h]
        by_cases hk : k' = k <;> simp [hk]
      · rename_i h
        rw [Memory.readAt_cons, Memory.readAt_cons, ih]
        by_cases hk : k' = c.1
        · have hk' : k' ≠ k := fun e => h (e ▸ hk)
          simp [hk, hk ▸ hk']
        · simp [hk]

/-- Every read after a write, the written address and any other (R50 (c)). -/
theorem Memory.readAt_writeAt_cases (m : Memory) (k k' : Nat) (v : Byte) :
    (m.writeAt k v).readAt k' = if k' = k then v else m.readAt k' := by
  unfold Memory.writeAt
  split
  · rename_i h
    rw [Memory.readAt_eraseAt, h]
  · rw [Memory.readAt_insertAt]

theorem Memory.mem_insertAt {m : Memory} {k : Nat} {v : Byte} {c : Host.Cell}
    (h : c ∈ m.insertAt k v) : c = (k, v) ∨ c ∈ m := by
  induction m with
  | nil => simpa [Memory.insertAt] using h
  | cons d m ih =>
    unfold Memory.insertAt at h
    split at h
    · simpa using h
    · split at h
      · rcases List.mem_cons.1 h with h | h
        · exact .inl h
        · exact .inr (List.mem_cons_of_mem _ h)
      · rcases List.mem_cons.1 h with h | h
        · exact .inr (by simp [h])
        · exact (ih h).imp id (List.mem_cons_of_mem _)

theorem Memory.insertAt_sorted {m : Memory} (k : Nat) (v : Byte)
    (h : m.Pairwise fun c d => c.1 < d.1) :
    (m.insertAt k v).Pairwise fun c d => c.1 < d.1 := by
  induction m with
  | nil => simp [Memory.insertAt]
  | cons d m ih =>
    obtain ⟨hd, hm⟩ := List.pairwise_cons.1 h
    unfold Memory.insertAt
    split
    · rename_i hk
      refine List.pairwise_cons.2 ⟨fun c hc => ?_, h⟩
      rcases List.mem_cons.1 hc with rfl | hc
      · exact hk
      · exact Nat.lt_trans hk (hd c hc)
    · split
      · rename_i hk
        exact List.pairwise_cons.2 ⟨fun c hc => by rw [hk]; exact hd c hc, hm⟩
      · rename_i h1 h2
        refine List.pairwise_cons.2 ⟨fun c hc => ?_, ih hm⟩
        rcases Memory.mem_insertAt hc with rfl | hc
        · exact Nat.lt_of_le_of_ne (Nat.le_of_not_lt h1) (fun e => h2 e.symm)
        · exact hd c hc

/-- A write inside the memory keeps the canonical form. -/
theorem Memory.wf_writeAt {m : Memory} {k : Nat} (v : Byte) (h : m.wf) (hk : k < Config.memSize) :
    (m.writeAt k v).wf := by
  unfold Memory.writeAt
  split
  · exact ⟨h.1.filter _, fun c hc => h.2 c (List.mem_of_mem_filter hc)⟩
  · rename_i hv
    refine ⟨Memory.insertAt_sorted k v h.1, fun c hc => ?_⟩
    rcases Memory.mem_insertAt hc with rfl | hc
    · exact ⟨hk, hv⟩
    · exact h.2 c hc

/-- Placing bytes keeps the canonical form wherever they go. -/
theorem Memory.wf_placeFrom {m : Memory} (k : Nat) (bytes : List Byte) (h : m.wf) :
    (m.placeFrom k bytes).wf := by
  induction bytes generalizing m k with
  | nil => exact h
  | cons v bytes ih =>
    unfold Memory.placeFrom
    refine ih (k + 1) ?_
    split
    · exact Memory.wf_writeAt v h ‹_›
    · exact h

/-- What placing bytes that fit leaves in each cell: the bytes where they go, and the old contents elsewhere. -/
theorem Memory.readAt_placeFrom {m : Memory} {k : Nat} (bytes : List Byte)
    (h : k + bytes.length ≤ Config.memSize) (k' : Nat) :
    (m.placeFrom k bytes).readAt k' =
      if k ≤ k' then bytes.getD (k' - k) (m.readAt k') else m.readAt k' := by
  induction bytes generalizing m k with
  | nil => simp [Memory.placeFrom]
  | cons v bytes ih =>
    rw [List.length_cons] at h
    unfold Memory.placeFrom
    rw [if_pos (by omega), ih (by omega), Memory.readAt_writeAt_cases]
    rcases Nat.lt_trichotomy k' k with hk | rfl | hk
    · rw [if_neg (by omega), if_neg (by omega), if_neg (by omega)]
    · simp
    · rw [show k' - k = k' - (k + 1) + 1 by omega, List.getD_cons_succ, if_neg (show ¬k' = k by omega),
        if_pos (show k + 1 ≤ k' by omega), if_pos (show k ≤ k' by omega)]

/-- The reset memory is canonical. -/
theorem Memory.wf_reset : State.reset.mem.wf := by decide

end Sys2Proof.Machine
end

