-- ==== Sys2Proof/Laws/HostPort.lean ====
section
/-! SUPPORT. What each event of a session can do, said once. -/

namespace Sys2Proof.Machine

/-- The load port answers before the first step and for words that fit, and then only the memory is another. -/
theorem Session.load_eq_some {h t : Session} {words : List Byte} {origin : Nat} :
    h.load words origin = some t ↔
      h.stepped = false ∧ origin + words.length ≤ Config.memSize ∧
        t = { h with unit := { h.unit with mem := h.unit.mem.placeFrom origin words } } := by
  unfold Session.load State.copyIn
  cases h.stepped <;> by_cases hw : origin + words.length ≤ Config.memSize <;> simp [hw, eq_comm]

/-- After a step the port is closed. -/
theorem Session.load_eq_none {h : Session} (hs : h.stepped = true) (words : List Byte) (origin : Nat) :
    h.load words origin = none :=
  if_pos hs

/-- A step of a session is a step of the unit, and closes the load port. -/
theorem Session.step_eq_some {h t : Session} :
    h.step = some t ↔ Sys2Proof.Machine.step h.unit = .next t.unit ∧ t.stepped = true := by
  obtain ⟨u, b⟩ := t
  unfold Session.step
  cases Sys2Proof.Machine.step h.unit <;> simp [eq_comm]

/-- The launch state is the reset state with the words copied in. -/
theorem launch_eq {words : List Byte} {origin : Nat} (h : origin + words.length ≤ Config.memSize) :
    launch words origin =
      some { State.reset with mem := State.reset.mem.placeFrom origin words } := by
  rw [launch, Session.load_eq_some.2 ⟨rfl, h, rfl⟩]
  rfl

end Sys2Proof.Machine
end

