-- ==== Sys2Proof/Laws/PerInstr.lean ====
section
/-! SUPPORT. The per-instruction family EncodedLength: an instruction is encoded in `1 + operandCount` bytes,
its opcode byte first, under any opcode table (R60). -/

namespace Sys2Proof.Laws.EncodedLength

/-- The encoding of `i` is its opcode byte and as many bytes as its table entry declares. -/
def Statement (i : Instr) : Prop :=
  ∀ t : OpcodeTable, (encodeWith t i).length = 1 + i.operandCount ∧ (encodeWith t i).head? = some (t i.mnemonic)

theorem hlt : Statement .hlt := fun _ => ⟨rfl, rfl⟩
theorem ldi (a b : Byte) : Statement (.ldi a b) := fun _ => ⟨rfl, rfl⟩
theorem prn (a : Byte) : Statement (.prn a) := fun _ => ⟨rfl, rfl⟩
theorem mul (a b : Byte) : Statement (.mul a b) := fun _ => ⟨rfl, rfl⟩
theorem add (a b : Byte) : Statement (.add a b) := fun _ => ⟨rfl, rfl⟩
theorem sub (a b : Byte) : Statement (.sub a b) := fun _ => ⟨rfl, rfl⟩
theorem div (a b : Byte) : Statement (.div a b) := fun _ => ⟨rfl, rfl⟩
theorem mod (a b : Byte) : Statement (.mod a b) := fun _ => ⟨rfl, rfl⟩
theorem and (a b : Byte) : Statement (.and a b) := fun _ => ⟨rfl, rfl⟩
theorem or (a b : Byte) : Statement (.or a b) := fun _ => ⟨rfl, rfl⟩
theorem xor (a b : Byte) : Statement (.xor a b) := fun _ => ⟨rfl, rfl⟩
theorem not (a : Byte) : Statement (.not a) := fun _ => ⟨rfl, rfl⟩
theorem shl (a b : Byte) : Statement (.shl a b) := fun _ => ⟨rfl, rfl⟩
theorem shr (a b : Byte) : Statement (.shr a b) := fun _ => ⟨rfl, rfl⟩
theorem addi (a b : Byte) : Statement (.addi a b) := fun _ => ⟨rfl, rfl⟩
theorem cmp (a b : Byte) : Statement (.cmp a b) := fun _ => ⟨rfl, rfl⟩
theorem jmp (a : Byte) : Statement (.jmp a) := fun _ => ⟨rfl, rfl⟩
theorem jeq (a : Byte) : Statement (.jeq a) := fun _ => ⟨rfl, rfl⟩
theorem jne (a : Byte) : Statement (.jne a) := fun _ => ⟨rfl, rfl⟩
theorem push (a : Byte) : Statement (.push a) := fun _ => ⟨rfl, rfl⟩
theorem pop (a : Byte) : Statement (.pop a) := fun _ => ⟨rfl, rfl⟩
theorem call (a : Byte) : Statement (.call a) := fun _ => ⟨rfl, rfl⟩
theorem ret : Statement .ret := fun _ => ⟨rfl, rfl⟩

end Sys2Proof.Laws.EncodedLength
end

