-- ==== Sys2Proof/Laws/Step.lean ====
section
/-! SUPPORT. What the fetch reads and what a step can do, said once. -/

namespace Sys2Proof.Machine

@[simp] theorem State.window_length (s : State) : s.window.length = min 3 (256 - s.pc) := by
  simp [State.window, maxInstrBytes]

theorem State.window_getElem (s : State) {k : Nat} (h : k < s.window.length) :
    s.window[k] = s.mem.readAt (s.pc + k) := by
  simp [State.window]

/-- Beyond the memory there is no byte. -/
theorem State.window_eq_nil {s : State} (h : 255 < s.pc) : s.window = [] :=
  List.eq_nil_of_length_eq_zero (by rw [State.window_length]; omega)

/-- Inside the memory the first byte is the opcode byte, and the others follow it. -/
theorem State.window_eq_cons {s : State} (h : s.pc ≤ 255) :
    s.window = s.mem.readAt s.pc :: s.window.tail := by
  have hl : 0 < s.window.length := by rw [State.window_length]; omega
  have h0 := State.window_getElem s hl
  rcases hw : s.window with _ | ⟨op, rest⟩
  · simp [hw] at hl
  · simpa [hw] using h0

theorem State.window_tail_length (s : State) : s.window.tail.length = min 3 (256 - s.pc) - 1 := by
  simp

theorem State.window_tail_getD {s : State} {k : Nat} (hk : k < 2) (h : s.pc + k + 1 ≤ 255) :
    s.window.tail.getD k 0 = s.mem.readAt (s.pc + (k + 1)) := by
  have hl : k + 1 < s.window.length := by rw [State.window_length]; omega
  rw [List.getD_eq_getElem?_getD, List.getElem?_tail, List.getElem?_eq_getElem hl, Option.getD_some,
    State.window_getElem]

/-- A byte the entry does not declare is dropped. -/
theorem Mnemonic.build_congr {m : Mnemonic} {a a' b b' : Byte}
    (ha : 1 ≤ m.operandCount → a = a') (hb : 2 ≤ m.operandCount → b = b') :
    m.build a b = m.build a' b' := by
  cases m <;>
    simp_all [Mnemonic.build, Mnemonic.operandCount, Mnemonic.format, Format.operandCount]

/-- The fetch, phase by phase (R82 to R85). -/
theorem fetch_eq (t : OpcodeTable) (s : State) :
    fetch t s =
      if 255 < s.pc then .error (.outOfRange, 256)
      else match t.lookup (s.mem.readAt s.pc) with
        | none => .error (.invalidOpcode, (s.mem.readAt s.pc).toNat)
        | some m =>
          if 255 < s.pc + m.operandCount then .error (.outOfRange, 256)
          else .ok (m.build (s.mem.readAt (s.pc + 1)) (s.mem.readAt (s.pc + 2))) := by
  by_cases hp : 255 < s.pc
  · simp [fetch, State.window_eq_nil hp, decodeWith, hp]
  · rw [if_neg hp, fetch, State.window_eq_cons (Nat.le_of_not_lt hp), decodeWith_cons]
    cases t.lookup (s.mem.readAt s.pc) with
    | none => rfl
    | some m =>
      have hm := m.operandCount_le
      by_cases hn : 255 < s.pc + m.operandCount
      · have : ¬ m.operandCount ≤ s.window.tail.length := by rw [State.window_tail_length]; omega
        simp only [if_neg this, if_pos hn]
      · have hl : m.operandCount ≤ s.window.tail.length := by rw [State.window_tail_length]; omega
        simp only [if_pos hl, if_neg hn]
        congr 1
        exact Mnemonic.build_congr (fun h => State.window_tail_getD (by omega) (by omega))
          fun h => State.window_tail_getD (by omega) (by omega)

/-- What the fetch can fail with: `OutOfRange(256)` or an unknown byte. -/
theorem fetch_error_cases {t : OpcodeTable} {s : State} {kind : FaultKind} {info : Int}
    (h : fetch t s = .error (kind, info)) :
    (kind = .outOfRange ∧ info = 256) ∨
    (kind = .invalidOpcode ∧ s.pc ≤ 255 ∧ t.lookup (s.mem.readAt s.pc) = none ∧
      info = (s.mem.readAt s.pc).toNat) := by
  rw [fetch_eq] at h
  split at h
  · cases h
    exact .inl ⟨rfl, rfl⟩
  · rename_i hp
    split at h
    · cases h
      exact .inr ⟨rfl, by omega, ‹_›, rfl⟩
    · split at h
      · cases h
        exact .inl ⟨rfl, rfl⟩
      · cases h

/-- What the fetch answers when it answers: the instruction of the bytes at the program counter, all inside the memory. -/
theorem fetch_ok_cases {t : OpcodeTable} {s : State} {i : Instr} (h : fetch t s = .ok i) :
    t.lookup (s.mem.readAt s.pc) = some i.mnemonic ∧ s.pc + i.operandCount ≤ 255 ∧
      i = i.mnemonic.build (s.mem.readAt (s.pc + 1)) (s.mem.readAt (s.pc + 2)) := by
  rw [fetch_eq] at h
  split at h
  · cases h
  · split at h
    · cases h
    · split at h
      · cases h
      · rename_i m hm hn
        cases h
        rw [Instr.operandCount, Mnemonic.build_mnemonic]
        exact ⟨hm, by omega, rfl⟩

/-- A Running unit steps by its fetch. -/
theorem stepWith_of_running {t : OpcodeTable} {s : State} (h : s.running = true) :
    stepWith t s =
      match fetch t s with
      | .ok i => exec i s
      | .error (kind, info) => raise kind info s :=
  if_pos h

/-- The inversion lemma of the step: the unit was Running, and it raised the fetch's fault, or a fault of the
instruction it fetched, or did what that instruction does. -/
theorem stepWith_next_cases {t : OpcodeTable} {s u : State} (h : stepWith t s = .next u) :
    s.running = true ∧
    ((∃ kind info, fetch t s = .error (kind, info) ∧ u = s.raised kind info) ∨
     ∃ i, fetch t s = .ok i ∧
       ((∃ kind info, Raises s i kind info ∧ u = s.raised kind info) ∨ Does s i u)) := by
  unfold stepWith at h
  split at h
  · refine ⟨‹_›, ?_⟩
    split at h
    · exact .inr ⟨_, ‹_›, exec_next_cases h⟩
    · rename_i kind info hf
      rw [raise, Host.Outcome.next.injEq] at h
      exact .inl ⟨kind, info, hf, h.symm⟩
  · cases h

end Sys2Proof.Machine
end

