-- ==== Sys2Proof/Tests/Slice0.lean ====
section
/-! SUPPORT. The model's own tests: decoding, the vectors of 95_test_vectors.md (named by their ids), and a witness for
the hypotheses of each obligation. Expected values are the spec's. -/

namespace Sys2Proof.Tests

open Sys2Proof Sys2Proof.Machine

/-! ### Helpers -/

/-- The reset state with some registers set. -/
def regState (rs : List (RegIx × Byte)) : State :=
  rs.foldl (fun s p => s.setReg p.1 p.2) State.reset

/-- `s` with bytes at address `k` and `pc = k`, the start state of a vector. -/
def codeAt (k : Nat) (bytes : List Byte) (s : State) : State :=
  { s with mem := s.mem.placeFrom k bytes, pc := k }

/-- `M[k] = v`. -/
def cell (k : Nat) (v : Byte) (s : State) : State :=
  { s with mem := s.mem.writeAt k v }

/-- The result is a next state with property `p`. -/
def onNext (o : Result) (p : State → Bool) : Bool :=
  match o with
  | .next t => p t
  | _ => false

/-- The result is a next state in which the fault `(kind, pc, info)` has been taken. -/
def faultIs (o : Result) (kind : FaultKind) (pc : Nat) (info : Int) : Bool :=
  onNext o fun t => t.fault == some ⟨kind, pc, info⟩ && !t.running && t.pc == pc

/-- The bytes decode to `i` with nothing left. -/
def decodesTo (bytes : List Byte) (i : Instr) : Bool :=
  match decode bytes with
  | .ok (j, rest) => j == i && rest == []
  | .error _ => false

/-! ### Well-formedness: one ill-formed term for each check (R64) -/

theorem test_illFormed_operand_a : (Instr.ldi 8 0).wellFormed = false := by decide
theorem test_illFormed_operand_b : (Instr.add 0 8).wellFormed = false := by decide
theorem test_wellFormed_bound : (Instr.add 7 7).wellFormed = true := by decide
theorem test_wellFormed_immediate : (Instr.addi 7 255).wellFormed = true := by decide

/-! ### Decoding: each word written out bit by bit from R67 and R68 -/

theorem test_decode_hlt : decodesTo [0b00000001] (.hlt) = true := by decide
theorem test_decode_ldi : decodesTo [0b10000010, 0b00000011, 0b11001000] (.ldi 3 200) = true := by decide
theorem test_decode_prn : decodesTo [0b01000111, 0b00000111] (.prn 7) = true := by decide
theorem test_decode_mul : decodesTo [0b10100010, 0b00000000, 0b00000001] (.mul 0 1) = true := by decide
theorem test_decode_add : decodesTo [0b10100000, 0b00000010, 0b00000101] (.add 2 5) = true := by decide
theorem test_decode_sub : decodesTo [0b10100001, 0b00000001, 0b00000100] (.sub 1 4) = true := by decide
theorem test_decode_div : decodesTo [0b10100011, 0b00000110, 0b00000011] (.div 6 3) = true := by decide
theorem test_decode_mod : decodesTo [0b10100100, 0b00000101, 0b00000010] (.mod 5 2) = true := by decide
theorem test_decode_and : decodesTo [0b10101000, 0b00000001, 0b00000010] (.and 1 2) = true := by decide
theorem test_decode_or : decodesTo [0b10101010, 0b00000011, 0b00000100] (.or 3 4) = true := by decide
theorem test_decode_xor : decodesTo [0b10101011, 0b00000101, 0b00000110] (.xor 5 6) = true := by decide
theorem test_decode_not : decodesTo [0b01101001, 0b00000100] (.not 4) = true := by decide
theorem test_decode_shl : decodesTo [0b10101100, 0b00000111, 0b00000001] (.shl 7 1) = true := by decide
theorem test_decode_shr : decodesTo [0b10101101, 0b00000001, 0b00000111] (.shr 1 7) = true := by decide
theorem test_decode_addi : decodesTo [0b10101110, 0b00000010, 0b11111111] (.addi 2 255) = true := by decide
theorem test_decode_cmp : decodesTo [0b10100111, 0b00000110, 0b00000001] (.cmp 6 1) = true := by decide
theorem test_decode_jmp : decodesTo [0b01010100, 0b00000010] (.jmp 2) = true := by decide
theorem test_decode_jeq : decodesTo [0b01010101, 0b00000011] (.jeq 3) = true := by decide
theorem test_decode_jne : decodesTo [0b01010110, 0b00000101] (.jne 5) = true := by decide
theorem test_decode_push : decodesTo [0b01000101, 0b00000110] (.push 6) = true := by decide
theorem test_decode_pop : decodesTo [0b01000110, 0b00000001] (.pop 1) = true := by decide
theorem test_decode_call : decodesTo [0b01010000, 0b00000100] (.call 4) = true := by decide
theorem test_decode_ret : decodesTo [0b00010001] (.ret) = true := by decide

/-- E5, R70: bytes that are not opcodes. -/
theorem test_decode_invalid :
    ([0x00, 0x02, 0xA5, 0xA6, 0xA9, 0xAF, 0xFF] : List Byte).all
      (fun op => (Config.opcode.lookup op).isNone) = true := by decide
theorem test_decode_truncated : decodesTo [0x82, 0x00] (.ldi 0 0) = false := by decide
theorem test_decodeTableWord : decodeTableWord 24 0x0900A2 = some (.mul 0 9) := by decide
theorem test_withFetchWord :
    onNext (step (State.reset.withFetchWord 24 0x080082)) (fun t => t.reg 0 == 8 && t.pc == 3) = true := by
  decide

/-! ### One step: the vectors of 95_test_vectors.md -/

/-- A4. -/
theorem test_hlt :
    onNext (step (codeAt 255 [0x01] State.reset)) (fun t => !t.running && t.pc == 256 && t.fault == none) = true := by decide
/-- A9. -/
theorem test_ldi :
    onNext (step (codeAt 253 [0x82, 0, 7] State.reset)) (fun t => t.reg 0 == 7 && t.pc == 256) = true := by decide
/-- A8. -/
theorem test_ldi_index :
    faultIs (step (codeAt 0 [0x82, 8, 9] State.reset)) .outOfRange 0 8 = true := by decide
/-- A13. -/
theorem test_prn :
    onNext (step (codeAt 0 [0x47, 7] State.reset)) (fun t => t.out == [244] && t.pc == 2) = true := by decide
/-- A15. -/
theorem test_prn_end :
    faultIs (step (codeAt 255 [0x47] State.reset)) .outOfRange 255 256 = true := by decide
/-- B1. -/
theorem test_mul :
    onNext (step (codeAt 0 [0xA2, 0, 1] (regState [(0, 8), (1, 9)]))) (fun t => t.reg 0 == 72 && t.pc == 3) = true := by decide
/-- B3. -/
theorem test_mul_low :
    onNext (step (codeAt 0 [0xA2, 0, 1] (regState [(0, 255), (1, 255)]))) (fun t => t.reg 0 == 1 && t.reg 1 == 255) = true := by decide
/-- B6. -/
theorem test_add :
    onNext (step (codeAt 0 [0xA0, 0, 1] (regState [(0, 200), (1, 100)]))) (fun t => t.reg 0 == 44 && t.reg 5 == 0) = true := by decide
/-- B38. -/
theorem test_add_same :
    onNext (step (codeAt 0 [0xA0, 0, 0] (regState [(0, 0x90)]))) (fun t => t.reg 0 == 0x20 && t.pc == 3) = true := by decide
/-- B9. -/
theorem test_sub :
    onNext (step (codeAt 0 [0xA1, 0, 1] (regState [(0, 3), (1, 5)]))) (fun t => t.reg 0 == 254) = true := by decide
/-- B11. -/
theorem test_div :
    onNext (step (codeAt 0 [0xA3, 0, 1] (regState [(0, 200), (1, 7)]))) (fun t => t.reg 0 == 28) = true := by decide
/-- B14. -/
theorem test_div_zero :
    faultIs (step (codeAt 0 [0xA3, 0, 1] (regState [(0, 10), (1, 0)]))) .divideByZero 0 1 = true := by decide
/-- B15. -/
theorem test_mod :
    onNext (step (codeAt 0 [0xA4, 0, 1] (regState [(0, 200), (1, 7)]))) (fun t => t.reg 0 == 4) = true := by decide
/-- B18. -/
theorem test_mod_zero :
    faultIs (step (codeAt 0 [0xA4, 0, 1] (regState [(0, 10), (1, 0)]))) .divideByZero 0 1 = true := by decide
/-- B19. -/
theorem test_and :
    onNext (step (codeAt 0 [0xA8, 0, 1] (regState [(0, 0xCC), (1, 0xAA)]))) (fun t => t.reg 0 == 0x88) = true := by decide
/-- B20. -/
theorem test_or :
    onNext (step (codeAt 0 [0xAA, 0, 1] (regState [(0, 0xCC), (1, 0xAA)]))) (fun t => t.reg 0 == 0xEE) = true := by decide
/-- B21. -/
theorem test_xor :
    onNext (step (codeAt 0 [0xAB, 0, 1] (regState [(0, 0xCC), (1, 0xAA)]))) (fun t => t.reg 0 == 0x66) = true := by decide
/-- B50. -/
theorem test_not :
    onNext (step (codeAt 0 [0x69, 0, 0xFF] (regState [(0, 1)]))) (fun t => t.reg 0 == 0xFE && t.pc == 2) = true := by decide
/-- B22. -/
theorem test_shl :
    onNext (step (codeAt 0 [0xAC, 0, 1] (regState [(0, 0x81), (1, 1)]))) (fun t => t.reg 0 == 0x02) = true := by decide
/-- B26. -/
theorem test_shl_large :
    onNext (step (codeAt 0 [0xAC, 0, 1] (regState [(0, 0xFF), (1, 255)]))) (fun t => t.reg 0 == 0) = true := by decide
/-- B27. -/
theorem test_shr :
    onNext (step (codeAt 0 [0xAD, 0, 1] (regState [(0, 0x81), (1, 1)]))) (fun t => t.reg 0 == 0x40) = true := by decide
/-- B31. -/
theorem test_shr_large :
    onNext (step (codeAt 0 [0xAD, 0, 1] (regState [(0, 0xFF), (1, 8)]))) (fun t => t.reg 0 == 0) = true := by decide
/-- B52. -/
theorem test_addi :
    onNext (step (codeAt 0 [0xAE, 0, 0xFF] (regState [(0, 3)]))) (fun t => t.reg 0 == 2) = true := by decide
/-- B54. -/
theorem test_addi_legal :
    onNext (step (codeAt 0 [0xAE, 0, 8] (regState [(0, 1)]))) (fun t => t.reg 0 == 9 && t.fault == none) = true := by decide
/-- B37. -/
theorem test_cmp :
    onNext (step (codeAt 0 [0xA7, 0, 1] (regState [(0, 1), (1, 2), (5, 0xFF)]))) (fun t => t.reg 5 == 0x04) = true := by decide
/-- B35. -/
theorem test_cmp_unsigned :
    onNext (step (codeAt 0 [0xA7, 0, 1] (regState [(0, 0x80), (1, 0x7F)]))) (fun t => t.reg 5 == 0x02) = true := by decide
/-- C3. -/
theorem test_jmp :
    onNext (step (codeAt 0 [0x54, 0] (regState [(0, 0xFF)]))) (fun t => t.pc == 255) = true := by decide
/-- C9. -/
theorem test_jeq :
    onNext (step (codeAt 0x10 [0x55, 2] (regState [(2, 0x40), (5, 0xFF)]))) (fun t => t.pc == 0x40) = true := by decide
/-- C10. -/
theorem test_jeq_falls :
    onNext (step (codeAt 0x10 [0x55, 2] (regState [(2, 0x40), (5, 0x06)]))) (fun t => t.pc == 0x12) = true := by decide
/-- C13. -/
theorem test_jne :
    onNext (step (codeAt 0x10 [0x56, 2] (regState [(2, 0x40)]))) (fun t => t.pc == 0x40) = true := by decide
/-- C15. -/
theorem test_jne_falls :
    onNext (step (codeAt 254 [0x56, 0] (regState [(5, 1)]))) (fun t => t.pc == 256) = true := by decide
/-- D6. -/
theorem test_push_own_byte :
    onNext (step (codeAt 0 [0x45, 0] (regState [(0, 1), (7, 2)]))) (fun t => t.reg 7 == 1 && t.mem.readAt 1 == 1 && t.mem.readAt 0 == 0x45 && t.pc == 2) = true := by decide
/-- D4. -/
theorem test_push_sp :
    onNext (step (codeAt 0 [0x45, 7] State.reset)) (fun t => t.reg 7 == 0xF3 && t.mem.readAt 0xF3 == 0xF3) = true := by decide
/-- D7. -/
theorem test_pop :
    onNext (step (codeAt 0 [0x46, 1] (cell 0xF3 0xAA (regState [(7, 0xF3)])))) (fun t => t.reg 1 == 0xAA && t.reg 7 == 0xF4 && t.mem.readAt 0xF3 == 0xAA) = true := by decide
/-- D11. -/
theorem test_pop_sp :
    onNext (step (codeAt 0 [0x46, 7] (cell 0xF3 0x20 (regState [(7, 0xF3)])))) (fun t => t.reg 7 == 0x21) = true := by decide
/-- D15. -/
theorem test_call :
    onNext (step (codeAt 253 [0x50, 1] (regState [(1, 9)]))) (fun t => t.reg 7 == 0xF3 && t.mem.readAt 0xF3 == 0xFF && t.pc == 9) = true := by decide
/-- D20. -/
theorem test_call_sp :
    onNext (step (codeAt 0x20 [0x50, 7] State.reset)) (fun t => t.reg 7 == 0xF3 && t.mem.readAt 0xF3 == 0x22 && t.pc == 0xF3) = true := by decide
/-- D24. -/
theorem test_ret :
    onNext (step (codeAt 255 [0x11] (cell 0xF3 0x08 (regState [(7, 0xF3)])))) (fun t => t.pc == 8 && t.reg 7 == 0xF4) = true := by decide
/-- D23. -/
theorem test_ret_top :
    faultIs (step (codeAt 0x30 [0x11] (cell 255 0x10 (regState [(7, 255)])))) .outOfRange 0x30 256 = true := by decide

/-! ### Fault priority (R177): E1, E3, E6 to E11 -/

/-- E1. -/
theorem test_priority_empty :
    faultIs (step (State.reset)) .invalidOpcode 0 0 = true := by decide
/-- E3. -/
theorem test_priority_pc256 :
    faultIs (step (codeAt 256 [] State.reset)) .outOfRange 256 256 = true := by decide
/-- E6. -/
theorem test_priority_e6 :
    faultIs (step (codeAt 255 [0xFF] State.reset)) .invalidOpcode 255 255 = true := by decide
/-- E7. -/
theorem test_priority_e7 :
    faultIs (step (codeAt 254 [0xA2, 0xC8] State.reset)) .outOfRange 254 256 = true := by decide
/-- E8. -/
theorem test_priority_e8 :
    faultIs (step (codeAt 0 [0xA2, 8, 9] State.reset)) .outOfRange 0 8 = true := by decide
/-- E9. -/
theorem test_priority_e9 :
    faultIs (step (codeAt 0 [0xA3, 9, 1] State.reset)) .outOfRange 0 9 = true := by decide
/-- E10. -/
theorem test_priority_e10 :
    faultIs (step (codeAt 0 [0x50, 8] (regState [(7, 0)]))) .outOfRange 0 8 = true := by decide
/-- E11. -/
theorem test_priority_e11 :
    faultIs (step (codeAt 254 [0x50, 1] (regState [(7, 0)]))) .outOfRange 254 (-1) = true := by decide

/-! ### Witnesses: a concrete state and operands that meet the hypotheses of each obligation -/

theorem witness_EveryStepKeepsTheInvariant :
    ∃ t, State.reset.Inv ∧ step State.reset = .next t := ⟨_, by decide, rfl⟩
theorem witness_HaltedUnitHasNoStep :
    State.reset.halt.running = false := by decide
theorem witness_RunningUnitAlwaysSteps :
    (codeAt 256 [] State.reset).running = true := by decide
theorem witness_HaltedIsTerminal_halted :
    State.reset.halt.running = false ∧ Reaches State.reset.halt State.reset.halt := ⟨rfl, .here⟩
theorem witness_HaltedIsTerminal_faulted :
    (State.reset.raised .invalidOpcode 0).Inv ∧
    (State.reset.raised .invalidOpcode 0).fault = some ⟨.invalidOpcode, 0, 0⟩ ∧
    Reaches (State.reset.raised .invalidOpcode 0) (State.reset.raised .invalidOpcode 0) := ⟨by decide, rfl, .here⟩
theorem witness_OnlyHltHaltsWithoutFault :
    ∃ t, step (codeAt 255 [0x01] State.reset) = .next t ∧ t.running = false ∧ t.fault = none := ⟨_, rfl, by decide, by decide⟩
theorem witness_OutputHistoryOnlyGrows :
    ∃ t, Reaches (codeAt 0 [0x47, 7] State.reset) t ∧ t.out = [0xF4] := ⟨_, .after .here rfl, by decide⟩
theorem witness_FaultsArePrecise :
    ∃ t, step State.reset = .next t ∧ State.reset.fault = none ∧ t.fault = some ⟨.invalidOpcode, 0, 0⟩ := ⟨_, rfl, rfl, by decide⟩
theorem witness_OutOfRangeOnlyInTheSevenSituations_1 :
    ∃ t, step (codeAt 256 [] State.reset) = .next t ∧
    (codeAt 256 [] State.reset).fault = none ∧ t.fault = some ⟨.outOfRange, 256, 256⟩ := ⟨_, rfl, by decide, by decide⟩
theorem witness_OutOfRangeOnlyInTheSevenSituations_2 :
    ∃ t, step (codeAt 255 [0x47] State.reset) = .next t ∧
    (codeAt 255 [0x47] State.reset).fault = none ∧ t.fault = some ⟨.outOfRange, 255, 256⟩ := ⟨_, rfl, by decide, by decide⟩
theorem witness_OutOfRangeOnlyInTheSevenSituations_3 :
    ∃ t, step (codeAt 0 [0x47, 255] State.reset) = .next t ∧
    (codeAt 0 [0x47, 255] State.reset).fault = none ∧ t.fault = some ⟨.outOfRange, 0, 255⟩ := ⟨_, rfl, by decide, by decide⟩
theorem witness_OutOfRangeOnlyInTheSevenSituations_4 :
    ∃ t, step (codeAt 253 [0xA2, 7, 8] State.reset) = .next t ∧
    (codeAt 253 [0xA2, 7, 8] State.reset).fault = none ∧ t.fault = some ⟨.outOfRange, 253, 8⟩ := ⟨_, rfl, by decide, by decide⟩
theorem witness_OutOfRangeOnlyInTheSevenSituations_5 :
    ∃ t, step (codeAt 0 [0x45, 0] (regState [(7, 0)])) = .next t ∧
    (codeAt 0 [0x45, 0] (regState [(7, 0)])).fault = none ∧ t.fault = some ⟨.outOfRange, 0, -1⟩ := ⟨_, rfl, by decide, by decide⟩
theorem witness_OutOfRangeOnlyInTheSevenSituations_6 :
    ∃ t, step (codeAt 254 [0x50, 1] State.reset) = .next t ∧
    (codeAt 254 [0x50, 1] State.reset).fault = none ∧ t.fault = some ⟨.outOfRange, 254, 256⟩ := ⟨_, rfl, by decide, by decide⟩
theorem witness_OutOfRangeOnlyInTheSevenSituations_7 :
    ∃ t, step (codeAt 0 [0x46, 0] (regState [(7, 255)])) = .next t ∧
    (codeAt 0 [0x46, 0] (regState [(7, 255)])).fault = none ∧ t.fault = some ⟨.outOfRange, 0, 256⟩ := ⟨_, rfl, by decide, by decide⟩
theorem witness_OutOfRangeOnlyInTheSevenSituations_7_popSp :
    ∃ t, step (codeAt 0 [0x46, 7] (cell 0xF3 0xFF (regState [(7, 0xF3)]))) = .next t ∧
    (codeAt 0 [0x46, 7] (cell 0xF3 0xFF (regState [(7, 0xF3)]))).fault = none ∧ t.fault = some ⟨.outOfRange, 0, 256⟩ := ⟨_, rfl, by decide, by decide⟩
theorem witness_DivideByZeroComesFromDivAndModOnly :
    ∃ t, exec (.div 0 7) (regState [(7, 0)]) = .next t ∧ (regState [(7, 0)]).fault = none ∧
    t.fault = some ⟨.divideByZero, 0, 7⟩ := ⟨_, rfl, by decide, by decide⟩
theorem witness_DivideByZeroComesFromDivAndModOnly_converse :
    (7 : Byte).toNat < 8 ∧ (1 : Byte).toNat = (1 : RegIx).val ∧ ({ State.reset with pc := 253 }).pc + 2 ≤ 255 ∧
    ({ State.reset with pc := 253 }).reg 1 = 0 := by decide
theorem witness_StepRunsTheDecodedInstruction :
    (codeAt 253 [0xA2, 0, 1] State.reset).running = true ∧
    (codeAt 253 [0xA2, 0, 1] State.reset).pc + (Instr.mul 0 1).operandCount ≤ 255 ∧
    ∀ k (h : k < (encode (.mul 0 1)).length),
      (codeAt 253 [0xA2, 0, 1] State.reset).mem.readAt ((codeAt 253 [0xA2, 0, 1] State.reset).pc + k) = (encode (.mul 0 1))[k] := by decide
theorem witness_StepIsThePseudocode :
    (codeAt 256 [] State.reset).running = true ∧ (codeAt 256 [] State.reset).pc ≤ 256 := by decide
theorem witness_UnknownByteRaisesInvalidOpcode :
    (codeAt 255 [0xFF] State.reset).running = true ∧ (codeAt 255 [0xFF] State.reset).pc ≤ 255 ∧
    Config.opcode.lookup ((codeAt 255 [0xFF] State.reset).mem.readAt 255) = none := by decide
theorem witness_UnknownByteRaisesInvalidOpcode_converse :
    ∃ t, step (codeAt 255 [0xFF] State.reset) = .next t ∧ (codeAt 255 [0xFF] State.reset).fault = none ∧
    t.fault = some ⟨.invalidOpcode, 255, 0xFF⟩ := ⟨_, rfl, by decide, by decide⟩
theorem witness_OpcodeFetchBeyondMemory :
    (codeAt 256 [] State.reset).running = true ∧ (codeAt 256 [] State.reset).pc = 256 ∧ (codeAt 255 [] State.reset).pc ≤ 255 := by decide
theorem witness_OperandFetchBeyondMemory :
    (codeAt 254 [0xA2, 0] State.reset).running = true ∧
    Config.opcode.lookup ((codeAt 254 [0xA2, 0] State.reset).mem.readAt 254) = some .mul ∧
    255 < 254 + Mnemonic.mul.operandCount := by decide
theorem witness_OperandFetchBeyondMemory_legal :
    Config.opcode.lookup ((codeAt 254 [0x69, 0] State.reset).mem.readAt 254) = some .not ∧ 254 + Mnemonic.not.operandCount ≤ 255 ∧
    Config.opcode.lookup ((codeAt 255 [0x11] State.reset).mem.readAt 255) = some .ret ∧ 255 + Mnemonic.ret.operandCount ≤ 255 := by decide
theorem witness_BadRegisterIndexIsReported :
    255 < ({ State.reset with pc := 254 }).pc + (Instr.mul 8 9).operandCount ∧
    ({ State.reset with pc := 253 }).pc + (Instr.mul 8 9).operandCount ≤ 255 ∧
    (Instr.mul 8 9).registerOperands.find? (fun b => decide (8 ≤ b.toNat)) = some 8 ∧
    (Instr.mul 7 255).registerOperands.find? (fun b => decide (8 ≤ b.toNat)) = some 255 := by decide
/-- NOT: the byte after the instruction differs. -/
theorem witness_UndeclaredBytesHaveNoInfluence :
    ∃ t, (codeAt 0 [0x69, 0] State.reset).running = true ∧
    fetch Config.opcode (codeAt 0 [0x69, 0] State.reset) = .ok (.not 0) ∧
    (∀ k, k ≤ (Instr.not 0).operandCount →
      (codeAt 0 [0x69, 0, 0xFF] State.reset).mem.readAt (0 + k) = (codeAt 0 [0x69, 0] State.reset).mem.readAt (0 + k)) ∧
    (Instr.not 0).loadsStackTop = false ∧
    step (codeAt 0 [0x69, 0] State.reset) = .next t := ⟨_, rfl, rfl, by decide, rfl, rfl⟩
/-- PUSH: the byte after it and the cell stored to differ before the step; the same byte is stored. -/
theorem witness_UndeclaredBytesHaveNoInfluence_store :
    fetch Config.opcode (codeAt 0 [0x45, 7] State.reset) = .ok (.push 7) ∧
    (Instr.push 7).storesBelowStackTop = true ∧
    (∀ k, k ≤ (Instr.push 7).operandCount →
      (cell 0xF3 9 (codeAt 0 [0x45, 7, 0xFF] State.reset)).mem.readAt (0 + k) = (codeAt 0 [0x45, 7] State.reset).mem.readAt (0 + k)) ∧
    onNext (step (cell 0xF3 9 (codeAt 0 [0x45, 7, 0xFF] State.reset)))
      (fun t => t.running && t.mem.readAt 0xF3 == 0xF3 && t.mem.readAt 2 == 0xFF) = true := by decide
/-- POP: the memories agree on the cell at `SP`, the last one, and differ elsewhere. -/
theorem witness_UndeclaredBytesHaveNoInfluence_load :
    fetch Config.opcode (cell 254 7 (codeAt 0 [0x46, 1] (regState [(7, 254)]))) = .ok (.pop 1) ∧
    (Instr.pop 1).loadsStackTop = true ∧
    (cell 254 7 (codeAt 0 [0x46, 1, 0xFF] State.reset)).mem.readAt (254 : Byte).toNat =
      (cell 254 7 (codeAt 0 [0x46, 1] State.reset)).mem.readAt (254 : Byte).toNat ∧
    onNext (step (cell 254 7 (codeAt 0 [0x46, 1] (regState [(7, 254)])))) (fun t => t.reg 1 == 7 && t.reg 7 == 255) = true := by
  decide
theorem witness_FetchAdvanceLaw :
    ∃ t, exec (.pop 7) State.reset = .next t ∧ State.reset.fault = none ∧ t.fault = none ∧
    (Instr.pop 7).redirects = false := ⟨_, rfl, rfl, by decide, rfl⟩
theorem witness_FlagsStayExclusive :
    ∃ t, exec (.add 7 5) (regState [(5, 4)]) = .next t ∧ ¬ (Instr.add 7 5).mayWrite 5 ∧
    (regState [(5, 4)]).fl ∈ ([0, 1, 2, 4] : List Byte) := ⟨_, rfl, by simp [Instr.mayWrite], by decide⟩
theorem witness_FlagsStayExclusive_cmp :
    ∃ t, exec (.cmp 5 0) State.reset = .next t ∧ (∃ a b, Instr.cmp 5 0 = .cmp a b) ∧
    State.reset.fl ∈ ([0, 1, 2, 4] : List Byte) := ⟨_, rfl, ⟨_, _, rfl⟩, by decide⟩
theorem witness_DecodeInvertsEncode :
    Function.Injective Config.opcode := Config.opcode_injective
theorem witness_EncodeInvertsDecode :
    decodeWith Config.opcode [0x69, 5, 0xFF] = .ok (.not 5, [0xFF]) := rfl
theorem witness_HltHaltsAndAdvances :
    ({ State.reset with pc := 255 }).pc ≤ 255 ∧
    onNext (exec .hlt { State.reset with pc := 255 }) (fun t => !t.running && t.pc == 256) = true := by decide
theorem witness_LdiLoadsTheImmediate :
    (7 : Byte).toNat = (7 : RegIx).val ∧ ({ State.reset with pc := 253 }).pc + 2 ≤ 255 ∧
    onNext (exec (.ldi 7 0x80) { State.reset with pc := 253 }) (fun t => t.reg 7 == 0x80 && t.pc == 256) = true := by decide
theorem witness_PrnPresentsTheRegister :
    (7 : Byte).toNat = (7 : RegIx).val ∧ ({ State.reset with pc := 254 }).pc + 1 ≤ 255 ∧
    onNext (exec (.prn 7) { State.reset with pc := 254 }) (fun t => t.out == [0xF4] && t.pc == 256) = true := by decide
theorem witness_MulKeepsTheLowByte :
    (7 : Byte).toNat = (7 : RegIx).val ∧ (0 : Byte).toNat = (0 : RegIx).val ∧ ({ regState [(0, 2)] with pc := 253 }).pc + 2 ≤ 255 ∧
    onNext (exec (.mul 7 0) { regState [(0, 2)] with pc := 253 }) (fun t => t.reg 7 == 0xE8 && t.pc == 256) = true := by decide
theorem witness_AddWraps :
    (0 : Byte).toNat = (0 : RegIx).val ∧ (1 : Byte).toNat = (1 : RegIx).val ∧ ({ regState [(0, 255), (1, 1)] with pc := 253 }).pc + 2 ≤ 255 ∧
    onNext (exec (.add 0 1) { regState [(0, 255), (1, 1)] with pc := 253 }) (fun t => t.reg 0 == 0 && t.pc == 256) = true := by decide
theorem witness_SubWraps :
    (0 : Byte).toNat = (0 : RegIx).val ∧ (1 : Byte).toNat = (1 : RegIx).val ∧ ({ regState [(1, 1)] with pc := 253 }).pc + 2 ≤ 255 ∧
    onNext (exec (.sub 0 1) { regState [(1, 1)] with pc := 253 }) (fun t => t.reg 0 == 255) = true := by decide
theorem witness_DivGivesTheQuotient :
    (0 : Byte).toNat = (0 : RegIx).val ∧ (1 : Byte).toNat = (1 : RegIx).val ∧ ({ regState [(0, 255), (1, 1)] with pc := 253 }).pc + 2 ≤ 255 ∧ ({ regState [(0, 255), (1, 1)] with pc := 253 }).reg 1 ≠ 0 ∧
    onNext (exec (.div 0 1) { regState [(0, 255), (1, 1)] with pc := 253 }) (fun t => t.reg 0 == 255) = true := by decide
theorem witness_DivGivesTheQuotient_zero :
    (0 : Byte).toNat = (0 : RegIx).val ∧ (0 : Byte).toNat = (0 : RegIx).val ∧ ({ State.reset with pc := 253 }).pc + 2 ≤ 255 ∧ ({ State.reset with pc := 253 }).reg 0 = 0 ∧
    onNext (exec (.div 0 0) { State.reset with pc := 253 }) (fun t => t.fault == some ⟨.divideByZero, 253, 0⟩) = true := by decide
theorem witness_ModGivesTheRemainder :
    (0 : Byte).toNat = (0 : RegIx).val ∧ (1 : Byte).toNat = (1 : RegIx).val ∧ ({ regState [(0, 5), (1, 10)] with pc := 253 }).pc + 2 ≤ 255 ∧ ({ regState [(0, 5), (1, 10)] with pc := 253 }).reg 1 ≠ 0 ∧
    onNext (exec (.mod 0 1) { regState [(0, 5), (1, 10)] with pc := 253 }) (fun t => t.reg 0 == 5) = true := by decide
theorem witness_ModGivesTheRemainder_zero :
    (0 : Byte).toNat = (0 : RegIx).val ∧ (0 : Byte).toNat = (0 : RegIx).val ∧ ({ State.reset with pc := 253 }).pc + 2 ≤ 255 ∧ ({ State.reset with pc := 253 }).reg 0 = 0 ∧
    onNext (exec (.mod 0 0) { State.reset with pc := 253 }) (fun t => t.fault == some ⟨.divideByZero, 253, 0⟩) = true := by decide
theorem witness_DivAndModAgree :
    ∃ q r, (0 : Byte).toNat = (0 : RegIx).val ∧ (1 : Byte).toNat = (1 : RegIx).val ∧
    (regState [(0, 200), (1, 7)]).pc + 2 ≤ 255 ∧ (regState [(0, 200), (1, 7)]).reg 1 ≠ 0 ∧
    exec (.div 0 1) (regState [(0, 200), (1, 7)]) = .next q ∧ exec (.mod 0 1) (regState [(0, 200), (1, 7)]) = .next r := ⟨_, _, by decide, by decide, by decide, by decide, rfl, rfl⟩
theorem witness_AndIsBitwise :
    (0 : Byte).toNat = (0 : RegIx).val ∧ (0 : Byte).toNat = (0 : RegIx).val ∧ ({ regState [(0, 0xCC)] with pc := 253 }).pc + 2 ≤ 255 ∧
    onNext (exec (.and 0 0) { regState [(0, 0xCC)] with pc := 253 }) (fun t => t.reg 0 == 0xCC) = true := by decide
theorem witness_OrIsBitwise :
    (0 : Byte).toNat = (0 : RegIx).val ∧ (1 : Byte).toNat = (1 : RegIx).val ∧ ({ regState [(0, 0x5A), (1, 0xFF)] with pc := 253 }).pc + 2 ≤ 255 ∧
    onNext (exec (.or 0 1) { regState [(0, 0x5A), (1, 0xFF)] with pc := 253 }) (fun t => t.reg 0 == 0xFF) = true := by decide
theorem witness_XorIsBitwise :
    (2 : Byte).toNat = (2 : RegIx).val ∧ (2 : Byte).toNat = (2 : RegIx).val ∧ ({ regState [(2, 0x5A)] with pc := 253 }).pc + 2 ≤ 255 ∧
    onNext (exec (.xor 2 2) { regState [(2, 0x5A)] with pc := 253 }) (fun t => t.reg 2 == 0) = true := by decide
theorem witness_NotComplements :
    (0 : Byte).toNat = (0 : RegIx).val ∧ ({ regState [(0, 0xFF)] with pc := 254 }).pc + 1 ≤ 255 ∧
    onNext (exec (.not 0) { regState [(0, 0xFF)] with pc := 254 }) (fun t => t.reg 0 == 0 && t.pc == 256) = true := by decide
theorem witness_ShlMultipliesByAPower :
    (0 : Byte).toNat = (0 : RegIx).val ∧ (1 : Byte).toNat = (1 : RegIx).val ∧ ({ regState [(0, 1), (1, 7)] with pc := 253 }).pc + 2 ≤ 255 ∧
    onNext (exec (.shl 0 1) { regState [(0, 1), (1, 7)] with pc := 253 }) (fun t => t.reg 0 == 0x80) = true := by decide
theorem witness_ShrDividesByAPower :
    (0 : Byte).toNat = (0 : RegIx).val ∧ (1 : Byte).toNat = (1 : RegIx).val ∧ ({ regState [(0, 0x80), (1, 7)] with pc := 253 }).pc + 2 ≤ 255 ∧
    onNext (exec (.shr 0 1) { regState [(0, 0x80), (1, 7)] with pc := 253 }) (fun t => t.reg 0 == 1) = true := by decide
theorem witness_ShiftAmountIsTheWholeRegister :
    (0 : Byte).toNat = (0 : RegIx).val ∧ (1 : Byte).toNat = (1 : RegIx).val ∧
    (regState [(0, 0xFF), (1, 8)]).pc + 2 ≤ 255 ∧ 8 ≤ ((regState [(0, 0xFF), (1, 8)]).reg 1).toNat := by decide
theorem witness_AddiAddsTheImmediate :
    (0 : Byte).toNat = (0 : RegIx).val ∧ ({ regState [(0, 250)] with pc := 253 }).pc + 2 ≤ 255 ∧
    onNext (exec (.addi 0 10) { regState [(0, 250)] with pc := 253 }) (fun t => t.reg 0 == 4) = true := by decide
theorem witness_CmpSetsExactlyOneFlag :
    (5 : Byte).toNat = (5 : RegIx).val ∧ (0 : Byte).toNat = (0 : RegIx).val ∧ ({ regState [(5, 1), (0, 1)] with pc := 253 }).pc + 2 ≤ 255 ∧
    onNext (exec (.cmp 5 0) { regState [(5, 1), (0, 1)] with pc := 253 }) (fun t => t.reg 5 == 0x01 && t.flagE && !t.flagL && !t.flagG) = true := by decide
theorem witness_CmpSetsExactlyOneFlag_less :
    (0 : Byte).toNat = (0 : RegIx).val ∧ (1 : Byte).toNat = (1 : RegIx).val ∧ ({ regState [(1, 255)] with pc := 253 }).pc + 2 ≤ 255 ∧
    onNext (exec (.cmp 0 1) { regState [(1, 255)] with pc := 253 }) (fun t => t.reg 5 == 0x04 && t.flagL) = true := by decide
theorem witness_CmpSetsExactlyOneFlag_greater :
    (1 : Byte).toNat = (1 : RegIx).val ∧ (0 : Byte).toNat = (0 : RegIx).val ∧ ({ regState [(1, 255)] with pc := 253 }).pc + 2 ≤ 255 ∧
    onNext (exec (.cmp 1 0) { regState [(1, 255)] with pc := 253 }) (fun t => t.reg 5 == 0x02 && t.flagG) = true := by decide
theorem witness_JmpTakesTheRegister :
    (7 : Byte).toNat = (7 : RegIx).val ∧ ({ State.reset with pc := 254 }).pc + 1 ≤ 255 ∧
    onNext (exec (.jmp 7) { State.reset with pc := 254 }) (fun t => t.pc == 0xF4) = true := by decide
theorem witness_JeqTestsBitZero :
    (2 : Byte).toNat = (2 : RegIx).val ∧ ({ regState [(5, 3), (2, 255)] with pc := 254 }).pc + 1 ≤ 255 ∧ (({ regState [(5, 3), (2, 255)] with pc := 254 }).reg 5).toNat % 2 = 1 ∧
    onNext (exec (.jeq 2) { regState [(5, 3), (2, 255)] with pc := 254 }) (fun t => t.pc == 255) = true := by decide
theorem witness_JeqTestsBitZero_falls :
    (2 : Byte).toNat = (2 : RegIx).val ∧ ({ regState [(5, 6)] with pc := 254 }).pc + 1 ≤ 255 ∧ (({ regState [(5, 6)] with pc := 254 }).reg 5).toNat % 2 = 0 ∧
    onNext (exec (.jeq 2) { regState [(5, 6)] with pc := 254 }) (fun t => t.pc == 256) = true := by decide
theorem witness_JneTestsBitZero :
    (2 : Byte).toNat = (2 : RegIx).val ∧ ({ regState [(5, 6)] with pc := 254 }).pc + 1 ≤ 255 ∧ (({ regState [(5, 6)] with pc := 254 }).reg 5).toNat % 2 = 0 ∧
    onNext (exec (.jne 2) { regState [(5, 6)] with pc := 254 }) (fun t => t.pc == 0) = true := by decide
theorem witness_JneTestsBitZero_falls :
    (2 : Byte).toNat = (2 : RegIx).val ∧ ({ regState [(5, 3)] with pc := 254 }).pc + 1 ≤ 255 ∧ (({ regState [(5, 3)] with pc := 254 }).reg 5).toNat % 2 = 1 ∧
    onNext (exec (.jne 2) { regState [(5, 3)] with pc := 254 }) (fun t => t.pc == 256) = true := by decide
theorem witness_PushStoresBelowTheStackTop :
    (0 : Byte).toNat = (0 : RegIx).val ∧ ({ regState [(0, 0xAA), (7, 1)] with pc := 254 }).pc + 1 ≤ 255 ∧ ({ regState [(0, 0xAA), (7, 1)] with pc := 254 }).sp ≠ 0 ∧
    onNext (exec (.push 0) { regState [(0, 0xAA), (7, 1)] with pc := 254 }) (fun t => t.reg 7 == 0 && t.mem.readAt 0 == 0xAA) = true := by decide
theorem witness_PushStoresBelowTheStackTop_empty :
    (0 : Byte).toNat = (0 : RegIx).val ∧ ({ regState [(7, 0)] with pc := 254 }).pc + 1 ≤ 255 ∧ ({ regState [(7, 0)] with pc := 254 }).sp = 0 ∧
    onNext (exec (.push 0) { regState [(7, 0)] with pc := 254 }) (fun t => t.fault == some ⟨.outOfRange, 254, -1⟩) = true := by decide
theorem witness_PopLoadsTheStackTop :
    (5 : Byte).toNat = (5 : RegIx).val ∧ ({ regState [(7, 254)] with pc := 254 }).pc + 1 ≤ 255 ∧ (5 : RegIx) ≠ 7 ∧ ({ regState [(7, 254)] with pc := 254 }).sp ≠ 255 ∧
    onNext (exec (.pop 5) { regState [(7, 254)] with pc := 254 }) (fun t => t.reg 7 == 255 && t.reg 5 == 0) = true := by decide
theorem witness_PopLoadsTheStackTop_full :
    (0 : Byte).toNat = (0 : RegIx).val ∧ ({ regState [(7, 255)] with pc := 254 }).pc + 1 ≤ 255 ∧ (0 : RegIx) ≠ 7 ∧ ({ regState [(7, 255)] with pc := 254 }).sp = 255 ∧
    onNext (exec (.pop 0) { regState [(7, 255)] with pc := 254 }) (fun t => t.fault == some ⟨.outOfRange, 254, 256⟩) = true := by decide
theorem witness_PopIntoTheStackPointer :
    State.reset.pc + 1 ≤ 255 ∧ (cell 0xF4 254 State.reset).mem.readAt State.reset.sp.toNat ≠ 255 ∧
    onNext (exec (.pop 7) (cell 0xF4 254 State.reset)) (fun t => t.reg 7 == 255) = true := by decide
theorem witness_PopIntoTheStackPointer_full :
    (cell 0xF4 255 State.reset).mem.readAt State.reset.sp.toNat = 255 ∧
    onNext (exec (.pop 7) (cell 0xF4 255 State.reset)) (fun t => t.fault == some ⟨.outOfRange, 0, 256⟩) = true := by decide
theorem witness_CallPushesTheReturnAddress :
    (7 : Byte).toNat = (7 : RegIx).val ∧ ({ State.reset with pc := 253 }).sp ≠ 0 ∧
    onNext (exec (.call 7) { State.reset with pc := 253 })
      (fun t => t.pc == 0xF3 && t.mem.readAt 0xF3 == 255) = true := by decide
theorem witness_CallPushesTheReturnAddress_faults :
    ({ State.reset with pc := 254 }).pc + 1 ≤ 255 ∧ ({ State.reset with pc := 254 }).sp ≠ 0 ∧
    onNext (exec (.call 1) { State.reset with pc := 254 }) (fun t => t.fault == some ⟨.outOfRange, 254, 256⟩) = true ∧
    onNext (exec (.call 1) { regState [(7, 0)] with pc := 254 }) (fun t => t.fault == some ⟨.outOfRange, 254, -1⟩) = true := by decide
theorem witness_RetPopsTheProgramCounter :
    ({ regState [(7, 254)] with pc := 255 }).pc ≤ 255 ∧ ({ regState [(7, 254)] with pc := 255 }).sp ≠ 255 ∧
    onNext (exec .ret { regState [(7, 254)] with pc := 255 }) (fun t => t.pc == 0 && t.reg 7 == 255) = true := by decide
theorem witness_RetPopsTheProgramCounter_full :
    (regState [(7, 255)]).sp = 255 ∧
    onNext (exec .ret (regState [(7, 255)])) (fun t => t.fault == some ⟨.outOfRange, 0, 256⟩) = true := by decide
theorem witness_StackRoundTrip :
    (0 : RegIx) ≠ 7 ∧ (1 : RegIx) ≠ 7 ∧ (0 : Byte).toNat = (0 : RegIx).val ∧ (1 : Byte).toNat = (1 : RegIx).val ∧
    ({ regState [(7, 1)] with pc := 252 }).sp ≠ 0 ∧ ({ regState [(7, 1)] with pc := 252 }).pc + 3 ≤ 255 := by decide
theorem witness_CallReturnSymmetry :
    ∃ u, (1 : Byte).toNat = (1 : RegIx).val ∧ State.reset.pc + 2 ≤ 255 ∧ State.reset.sp ≠ 0 ∧
    exec (.call 1) State.reset = .next u ∧ u.pc ≤ 255 := ⟨_, by decide, by decide, by decide, rfl, by decide⟩
theorem witness_MemoryIsItsContents :
    Memory.wf [(3, 1), (255, 2)] ∧ (255 : Nat) < 256 := by decide
theorem witness_StoreIsSeenByTheNextFetch :
    ∃ t, (0 : Byte).toNat = (0 : RegIx).val ∧ (0 : RegIx) ≠ 7 ∧
    (regState [(0, 1), (7, 3)]).sp.toNat = (regState [(0, 1), (7, 3)]).pc + 3 ∧
    exec (.push 0) (regState [(0, 1), (7, 3)]) = .next t := ⟨_, by decide, by decide, by decide, rfl⟩
theorem witness_LoadWritesMemoryOnly :
    255 + ([0x01] : List Byte).length ≤ 256 ∧ 256 < 255 + ([0x01, 0x01] : List Byte).length ∧
    Session.start.stepped = false ∧
    (launch [0x01] 255).isSome = true ∧ (Session.start.load [0x01, 0x01] 255).isNone = true := by decide
/-- The state of a JMP to itself is a launch state, and yet no load is possible after the step. -/
theorem witness_LoadWritesMemoryOnly_stepped :
    ∃ h t, Session.start.load [0x54, 0] = some h ∧ h.step = some t ∧ t.unit = h.unit ∧
    t.stepped = true ∧ t.load [0x01] = none := ⟨_, _, rfl, rfl, by decide, rfl, rfl⟩
theorem witness_LoadIsOpenBeforeTheFirstStepOnly :
    SessionReaches Session.start ∧ Session.start.stepped = false := ⟨.start, rfl⟩
/-- A session that stepped and halted; a reset opens the port again. -/
theorem witness_LoadIsOpenBeforeTheFirstStepOnly_stepped :
    ∃ h h', SessionReaches h ∧ h.stepped = true ∧ h.unit.running = false ∧
      h.after .reset = some h' ∧ SessionReaches h' ∧ h'.stepped = false :=
  ⟨_, _, .after (e := .step) .start rfl, rfl, by decide, rfl, .after (e := .reset) (.after (e := .step) .start rfl) rfl, rfl⟩
theorem witness_StatusOutputsShowTheRecord :
    (State.reset.raised .divideByZero 1).fault = some ⟨.divideByZero, 0, 1⟩ ∧
    (State.reset.raised .divideByZero 1).statusFaultKind = 3 ∧ State.reset.statusFaultKind = 0 := by decide

end Sys2Proof.Tests
end

section
/-!
The statements of 10_state.md: what a step, a run and a session keep of the unit's state, and CMP's flags.
-/

namespace Sys2Proof.Machine

/-! ### What an instruction that raises nothing keeps -/

/-- Only PUSH and CALL write memory, one cell each (R25). -/
theorem Does.mem_eq_or_writeAt {f : Instr} {s t : State} (h : Does s f t) :
    t.mem = s.mem ∨ ∃ addr v : Byte, t.mem = s.mem.writeAt addr.toNat v := by
  cases h with
  | push | call => exact .inr ⟨_, _, rfl⟩
  | jeq | jne => split <;> exact .inl rfl
  | _ => exact .inl rfl

theorem Does.mem_wf {f : Instr} {s t : State} (h : Does s f t) (hm : s.mem.wf) : t.mem.wf := by
  rcases h.mem_eq_or_writeAt with e | ⟨addr, v, e⟩ <;> rw [e]
  · exact hm
  · exact Memory.wf_writeAt v hm addr.isLt

/-- A register holds an address up to 255, and an advance begins after an operand at an address up to 255. -/
theorem Does.pc_le {f : Instr} {s t : State} (h : Does s f t) : t.pc ≤ Config.pcMax := by
  have jump_le : ∀ v : Byte, v.toNat ≤ Config.pcMax := fun v => Nat.le_of_lt v.isLt
  cases h with
  | jmp | call | ret => exact jump_le _
  | jeq hp =>
    split
    · exact jump_le _
    · exact Nat.succ_le_succ hp
  | jne hp =>
    split
    · exact Nat.succ_le_succ hp
    · exact jump_le _
  | _ => exact Nat.succ_le_succ ‹_›

theorem Does.fault_eq {f : Instr} {s t : State} (h : Does s f t) : t.fault = s.fault := by
  cases h with
  | jeq | jne => split <;> rfl
  | _ => rfl

/-- Only HLT clears `RUN` (R100). -/
theorem Does.running_eq {f : Instr} {s t : State} (h : Does s f t) (hf : f ≠ .hlt) :
    t.running = s.running := by
  cases h with
  | hlt => exact absurd rfl hf
  | jeq | jne => split <;> rfl
  | _ => rfl

/-- Only PRN appends to `OUT` (R102). -/
theorem Does.out_extends {f : Instr} {s t : State} (h : Does s f t) : s.out <+: t.out := by
  cases h with
  | prn => exact ⟨_, rfl⟩
  | jeq | jne => split <;> exact ⟨[], List.append_nil _⟩
  | _ => exact ⟨[], List.append_nil _⟩

/-- A register the table of R90 does not list is unchanged. -/
theorem Does.reg_eq {f : Instr} {s t : State} {r : RegIx} (h : Does s f t) (hr : ¬ f.mayWrite r) :
    t.reg r = s.reg r := by
  have ne_dest : ∀ {a : Byte} {i : RegIx}, a.toNat = i.val → ¬ a.toNat = r.val → r ≠ i :=
    fun hi ha e => ha (e ▸ hi)
  cases h with
  | hlt | prn | jmp => rfl
  | jeq | jne => split <;> rfl
  | ldi _ hi | addi _ hi | not _ hi => exact State.setReg_reg_of_ne s _ _ (ne_dest hi hr)
  | mul _ hi | add _ hi | sub _ hi | div _ hi | mod _ hi | and _ hi | or _ hi | xor _ hi
  | shl _ hi | shr _ hi => exact State.setReg_reg_of_ne s _ _ (ne_dest hi hr)
  | cmp | push | call | ret => exact State.setReg_reg_of_ne s _ _ hr
  | pop _ hi =>
    obtain ⟨ha, h7⟩ := not_or.1 hr
    exact (State.setReg_reg_of_ne _ _ _ h7).trans (State.setReg_reg_of_ne s _ _ (ne_dest hi ha))
  | popSp =>
    obtain ⟨_, h7⟩ := not_or.1 hr
    exact (State.setReg_reg_of_ne _ _ _ h7).trans (State.setReg_reg_of_ne s _ _ h7)

/-! ### What one step can do -/

/-- Every fault of an instruction has an `info` in its kind's range (R170, R172). -/
theorem Raises.infoLegal {s : State} {f : Instr} {kind : FaultKind} {info : Int}
    (h : Raises s f kind info) : kind.infoLegal info = true := by
  cases h with
  | @index _ b _ hb =>
    have h8 := (firstBad_bad hb).2
    have := b.isLt
    simp only [FaultKind.infoLegal, decide_eq_true_eq]
    omega
  | @divisor _ _ _ _ j =>
    have := j.isLt
    simp only [FaultKind.infoLegal, decide_eq_true_eq]
    omega
  | _ => rfl

/-- Every fault of the fetch has an `info` in its kind's range (R171, R172). -/
theorem fetch_error_infoLegal {t : OpcodeTable} {s : State} {kind : FaultKind} {info : Int}
    (h : fetch t s = .error (kind, info)) : kind.infoLegal info = true := by
  rcases fetch_error_cases h with ⟨rfl, rfl⟩ | ⟨rfl, -, -, rfl⟩
  · rfl
  · have := (s.mem.readAt s.pc).isLt
    simp only [FaultKind.infoLegal, decide_eq_true_eq]
    omega

/-- A step is taken by a Running unit, and takes a fault with a legal `info` or does what the fetched instruction does. -/
theorem step_raised_or_does {s t : State} (h : step s = .next t) :
    s.running = true ∧
      ((∃ kind info, kind.infoLegal info = true ∧ t = s.raised kind info) ∨
        ∃ i, fetch Config.opcode s = .ok i ∧ Does s i t) := by
  obtain ⟨hrun, ⟨kind, info, hf, rfl⟩ | ⟨i, hi, ⟨kind, info, hr, rfl⟩ | hd⟩⟩ := stepWith_next_cases h
  · exact ⟨hrun, .inl ⟨kind, info, fetch_error_infoLegal hf, rfl⟩⟩
  · exact ⟨hrun, .inl ⟨kind, info, hr.infoLegal, rfl⟩⟩
  · exact ⟨hrun, .inr ⟨i, hi, hd⟩⟩

/-! ### The invariant -/

/-- Taking a fault with a legal `info` keeps the invariant (R178). -/
theorem State.Inv.raised {s : State} {kind : FaultKind} {info : Int} (h : s.Inv)
    (hl : kind.infoLegal info = true) : (s.raised kind info).Inv := by
  obtain ⟨hpc, hmem, -⟩ := h
  refine ⟨hpc, hmem, fun r hr => ?_⟩
  obtain rfl : _ = r := Option.some.inj hr
  exact ⟨rfl, rfl, hl⟩

/-- A Running unit that meets the invariant holds no fault record. -/
theorem State.Inv.fault_eq_none {s : State} (h : s.Inv) (hrun : s.running = true) : s.fault = none := by
  obtain ⟨-, -, hfault⟩ := h
  refine Option.eq_none_iff_forall_not_mem.2 fun r hr => ?_
  obtain ⟨hstop, -, -⟩ := hfault r hr
  exact absurd (hstop.symm.trans hrun) Bool.false_ne_true

theorem State.inv_of_fault_eq_none {s : State} (hpc : s.pc ≤ Config.pcMax) (hmem : s.mem.wf)
    (hfault : s.fault = none) : s.Inv :=
  ⟨hpc, hmem, by simp [hfault]⟩

/-- What the fetched instruction does keeps the invariant of a Running unit. -/
theorem Does.inv {f : Instr} {s t : State} (h : Does s f t) (hi : s.Inv) (hrun : s.running = true) :
    t.Inv := by
  have hfault := h.fault_eq.trans (hi.fault_eq_none hrun)
  obtain ⟨-, hmem, -⟩ := hi
  exact State.inv_of_fault_eq_none h.pc_le (h.mem_wf hmem) hfault

/-- Settles O3: a step takes a fault, which keeps the invariant, or does what an instruction does, which keeps it too. -/
theorem everyStepKeepsTheInvariant : Obligations.EveryStepKeepsTheInvariant := by
  intro s t hi h
  obtain ⟨hrun, ⟨kind, info, hl, rfl⟩ | ⟨i, -, hd⟩⟩ := step_raised_or_does h
  · exact hi.raised hl
  · exact hd.inv hi hrun

theorem State.reset_inv : State.reset.Inv :=
  State.inv_of_fault_eq_none (Nat.zero_le _) Memory.wf_reset rfl

/-- Settles O2. -/
theorem resetMeetsTheInvariant : Obligations.ResetMeetsTheInvariant :=
  State.reset_inv

/-- Settles O1: each row of the reset table (R34). -/
theorem resetLeavesTheSpecifiedState : Obligations.ResetLeavesTheSpecifiedState := by
  refine ⟨?_, rfl, rfl, Memory.readAt_nil, rfl, rfl, rfl⟩
  decide

/-! ### Runs -/

/-- A unit that is Halted takes no step, so a run from it stays where it is (R81). -/
theorem Reaches.eq_of_halted {s t : State} (h : Reaches s t) (hs : s.running = false) : t = s := by
  induction h with
  | here => rfl
  | after _ hstep ih =>
    subst ih
    obtain ⟨hrun, -⟩ := step_raised_or_does hstep
    exact absurd (hs.symm.trans hrun) Bool.false_ne_true

/-- Settles O6: a fault record implies a Halted unit, and a run from a Halted unit stays where it is. -/
theorem haltedIsTerminal : Obligations.HaltedIsTerminal := by
  refine ⟨fun s t hs h => h.eq_of_halted hs, fun s t r hi hr h => ?_⟩
  obtain ⟨-, -, hfault⟩ := hi
  obtain ⟨hs, -, -⟩ := hfault r hr
  rw [h.eq_of_halted hs, hr]

/-- What HLT leaves (R100). -/
theorem Does.of_hlt {s t : State} (h : Does s .hlt t) : s.pc ≤ 255 ∧ t = s.halt.advance 1 := by
  cases h with
  | hlt hp => exact ⟨hp, rfl⟩

/-- Settles O7: a step that clears `RUN` takes a fault, and then leaves a record, or runs HLT. -/
theorem onlyHltHaltsWithoutFault : Obligations.OnlyHltHaltsWithoutFault := by
  intro s t h hstop hfault
  obtain ⟨hrun, ⟨kind, info, -, rfl⟩ | ⟨i, hf, hd⟩⟩ := step_raised_or_does h
  · simp at hfault
  · by_cases hi : i = .hlt
    · subst hi
      obtain ⟨hp, rfl⟩ := hd.of_hlt
      obtain ⟨hop, -, -⟩ := fetch_ok_cases hf
      exact ⟨hp, (OpcodeTable.byte_of_lookup hop).symm, rfl⟩
    · have hgo : t.running = true := (hd.running_eq hi).trans hrun
      exact absurd (hstop.symm.trans hgo) Bool.false_ne_true

theorem step_out_extends {s t : State} (h : step s = .next t) : s.out <+: t.out := by
  obtain ⟨-, ⟨kind, info, -, rfl⟩ | ⟨i, -, hd⟩⟩ := step_raised_or_does h
  · exact ⟨[], List.append_nil _⟩
  · exact hd.out_extends

theorem Reaches.out_extends {s t : State} (h : Reaches s t) : s.out <+: t.out := by
  induction h with
  | here => exact ⟨[], List.append_nil _⟩
  | after _ hstep ih => exact ih.trans (step_out_extends hstep)

/-- Settles O8, by induction on the run. -/
theorem outputHistoryOnlyGrows : Obligations.OutputHistoryOnlyGrows := by
  intro s t h
  obtain ⟨more, e⟩ := h.out_extends
  exact ⟨more, e.symm⟩

/-! ### The flags of CMP -/

theorem compareFlags_of_lt {x y : Byte} (h : x.toNat < y.toNat) : compareFlags x y = 0x04 := if_pos h

theorem compareFlags_of_gt {x y : Byte} (h : y.toNat < x.toNat) : compareFlags x y = 0x02 := by
  rw [compareFlags, if_neg (by omega), if_pos h]

theorem compareFlags_of_eq {x y : Byte} (h : x.toNat = y.toNat) : compareFlags x y = 0x01 := by
  rw [compareFlags, if_neg (by omega), if_neg (by omega)]

/-- The three outcomes of a compare exclude each other. -/
theorem compareFlags_cases (x y : Byte) :
    (x.toNat < y.toNat ∧ compareFlags x y = 0x04) ∨ (y.toNat < x.toNat ∧ compareFlags x y = 0x02) ∨
      (x.toNat = y.toNat ∧ compareFlags x y = 0x01) := by
  rcases Nat.lt_trichotomy x.toNat y.toNat with h | h | h
  · exact .inl ⟨h, compareFlags_of_lt h⟩
  · exact .inr (.inr ⟨h, compareFlags_of_eq h⟩)
  · exact .inr (.inl ⟨h, compareFlags_of_gt h⟩)

/-- The three flag bits of a compare: L, G and E (R18). -/
theorem compareFlags_bits (x y : Byte) :
    (compareFlags x y).getLsbD 2 = decide (x.toNat < y.toNat) ∧
      (compareFlags x y).getLsbD 1 = decide (y.toNat < x.toNat) ∧
      (compareFlags x y).getLsbD 0 = decide (x.toNat = y.toNat) := by
  rcases compareFlags_cases x y with ⟨h, e⟩ | ⟨h, e⟩ | ⟨h, e⟩ <;> rw [e]
  · simp [h, Nat.lt_asymm h, Nat.ne_of_lt h]
  · simp [h, Nat.lt_asymm h, Nat.ne_of_gt h]
  · simp [h]

/-- Settles O21: CMP writes one of the three flag bytes, and every other instruction of the statement leaves register 5. -/
theorem flagsStayExclusive : Obligations.FlagsStayExclusive := by
  intro i s t h hi hs
  rcases exec_next_cases h with ⟨kind, info, -, rfl⟩ | hd
  · exact hs
  rcases hi with ⟨a, b, rfl⟩ | hw
  · cases hd with
    | @cmp _ _ i j =>
      rw [State.fl_eq, State.advance_reg, State.setReg_reg_self]
      rcases compareFlags_cases (s.reg i) (s.reg j) with ⟨-, e⟩ | ⟨-, e⟩ | ⟨-, e⟩ <;> rw [e] <;> decide
  · rwa [State.fl_eq, hd.reg_eq hw]

/-- An instruction of format `RR` raises the faults of its operand bytes (R85, R86). -/
theorem operandFaults_of_formRR {f : Instr} {a b : Byte} {k : State → RegIx → RegIx → Result}
    (hn : f.operandCount = 2) (hr : f.registerOperands = [a, b])
    (he : ∀ s, exec f s = formRR a b s (k s)) : OperandFaults f := by
  intro s
  rw [hn, hr, he]
  exact ⟨fun h => withOperandSpace_bad h _, fun h _ hc => formRR_bad h hc _⟩

/-- A register write and an advance change that register and no other, and no memory. -/
theorem keepsExcept_setReg_advance (s : State) (i : RegIx) (v : Byte) (n : Nat) :
    KeepsExcept [i] [] s ((s.setReg i v).advance n) :=
  ⟨fun _ hr => State.setReg_reg_of_ne s i v (List.ne_of_not_mem_cons hr), fun _ _ => rfl⟩

theorem statusSame_setReg_advance (s : State) (i : RegIx) (v : Byte) (n : Nat) :
    StatusSame s ((s.setReg i v).advance n) :=
  ⟨rfl, rfl, rfl⟩

/-- CMP with two registers that are there writes the flags byte of the old values to register 5 (R127). -/
theorem exec_cmp {a b : Byte} {i j : RegIx} {s : State} (ha : a.toNat = i.val) (hb : b.toNat = j.val)
    (h : s.pc + 2 ≤ 255) :
    exec (.cmp a b) s = .next ((s.setReg 5 (compareFlags (s.reg i) (s.reg j))).advance 3) :=
  formRR_ok ha hb h _

/-- Settles O44: the three orders of the old values, each with its byte, and the three bits of that byte. -/
theorem cmpSetsExactlyOneFlag : Obligations.CmpSetsExactlyOneFlag := by
  refine fun a b => ⟨operandFaults_of_formRR rfl rfl fun _ => rfl, fun i j s ha hb h => ?_⟩
  refine ⟨_, exec_cmp ha hb h, ?_⟩
  simp only [State.flagL, State.flagG, State.flagE, State.fl_eq, State.advance_reg, State.setReg_reg_self]
  obtain ⟨hL, hG, hE⟩ := compareFlags_bits (s.reg i) (s.reg j)
  exact ⟨compareFlags_of_lt, compareFlags_of_gt, compareFlags_of_eq, hL, hG, hE, rfl,
    keepsExcept_setReg_advance s 5 _ 3, statusSame_setReg_advance s 5 _ 3⟩

/-! ### The load port and the status outputs -/

/-- Bytes that fit are read back where they were placed. -/
theorem Memory.readAt_placeFrom_inside {m : Memory} {origin k : Nat} {words : List Byte}
    (h : origin + words.length ≤ Config.memSize) (hk : k < words.length) :
    (m.placeFrom origin words).readAt (origin + k) = words[k] := by
  rw [Memory.readAt_placeFrom words h, if_pos (Nat.le_add_right _ _), Nat.add_sub_cancel_left,
    List.getD_eq_getElem _ _ hk]

/-- Placing bytes that fit changes no cell before them and none after them. -/
theorem Memory.readAt_placeFrom_outside {m : Memory} {origin k : Nat} {words : List Byte}
    (h : origin + words.length ≤ Config.memSize) (hk : k < origin ∨ origin + words.length ≤ k) :
    (m.placeFrom origin words).readAt k = m.readAt k := by
  rw [Memory.readAt_placeFrom words h]
  split
  · exact List.getD_eq_default _ _ (by omega)
  · rfl

/-- Words that do not fit are refused (D20). -/
theorem Session.load_eq_none_of_misfit {words : List Byte} {origin : Nat} (h : Session)
    (hw : Config.memSize < origin + words.length) : h.load words origin = none := by
  refine Option.eq_none_iff_forall_ne_some.2 fun t ht => ?_
  obtain ⟨-, hfit, -⟩ := Session.load_eq_some.1 ht
  exact Nat.not_le.2 hw hfit

/-- Settles O57: a load that is answered places the words, and the launch is such a load at reset. -/
theorem loadWritesMemoryOnly : Obligations.LoadWritesMemoryOnly := by
  refine ⟨fun h words origin => ⟨fun hs => Session.load_eq_none hs words origin,
    h.load_eq_none_of_misfit, fun hs hw => ?_⟩, fun words origin hw => ?_⟩
  · exact ⟨_, Session.load_eq_some.2 ⟨hs, hw, rfl⟩, hs, fun _ => Memory.readAt_placeFrom_inside hw,
      fun _ => Memory.readAt_placeFrom_outside hw, rfl, Memory.wf_placeFrom origin words⟩
  · exact ⟨_, launch_eq hw, fun _ => Memory.readAt_placeFrom_inside hw,
      fun _ => Memory.readAt_placeFrom_outside hw, rfl⟩

/-- The unit is the reset state but for its memory: what a load can make of it (R28, R202). -/
def State.Unstepped (s : State) : Prop := s = { State.reset with mem := s.mem }

theorem State.Unstepped.running_out {s : State} (h : s.Unstepped) : s.running = true ∧ s.out = [] := by
  rw [h]
  exact ⟨rfl, rfl⟩

/-- What every event of a session keeps. -/
structure Session.Sound (h : Session) : Prop where
  inv : h.unit.Inv
  unstepped : h.stepped = false → h.unit.Unstepped

theorem Session.start_sound : Session.start.Sound :=
  ⟨State.reset_inv, fun _ => rfl⟩

/-- A load changes memory only and keeps its canonical form. -/
theorem Session.Sound.load {h t : Session} {words : List Byte} {origin : Nat} (hh : h.Sound)
    (ht : h.load words origin = some t) : t.Sound := by
  obtain ⟨hs, -, rfl⟩ := Session.load_eq_some.1 ht
  obtain ⟨⟨hpc, hmem, hfault⟩, hu⟩ := hh
  refine ⟨⟨hpc, Memory.wf_placeFrom origin words hmem, hfault⟩, fun _ => ?_⟩
  have e := hu hs
  unfold State.Unstepped at e ⊢
  rw [e]

/-- A step keeps the invariant and marks the session as stepped. -/
theorem Session.Sound.step {h t : Session} (hh : h.Sound) (ht : h.step = some t) : t.Sound := by
  obtain ⟨hstep, hs⟩ := Session.step_eq_some.1 ht
  exact ⟨everyStepKeepsTheInvariant _ _ hh.inv hstep, fun h0 => absurd (h0.symm.trans hs) Bool.false_ne_true⟩

theorem Session.Sound.after {h t : Session} {e : Event} (hh : h.Sound) (ht : h.after e = some t) :
    t.Sound := by
  cases e with
  | reset =>
    obtain rfl : _ = t := Option.some.inj ht
    exact Session.start_sound
  | load words origin => exact hh.load ht
  | step => exact hh.step ht

theorem SessionReaches.sound {h : Session} (hr : SessionReaches h) : h.Sound := by
  induction hr with
  | start => exact Session.start_sound
  | after _ he ih => exact ih.after he

/-- A unit that is Halted or has presented output has taken a step since reset. -/
theorem Session.Sound.stepped {h : Session} (hh : h.Sound)
    (hu : h.unit.running = false ∨ h.unit.out ≠ []) : h.stepped = true := by
  by_contra hs
  obtain ⟨hrun, hout⟩ := (hh.unstepped (Bool.eq_false_of_not_eq_true hs)).running_out
  rcases hu with h0 | h0
  · exact absurd (h0.symm.trans hrun) Bool.false_ne_true
  · exact h0 hout

/-- Settles O59, by induction on the events of the session. -/
theorem loadIsOpenBeforeTheFirstStepOnly : Obligations.LoadIsOpenBeforeTheFirstStepOnly := by
  intro h hr
  have hh := hr.sound
  refine ⟨hh.inv, hh.unstepped, fun hc words origin => ?_, fun h' hs => (Session.step_eq_some.1 hs).2⟩
  have hs : h.stepped = true := hc.elim id hh.stepped
  exact Session.load_eq_none hs words origin

/-- Settles O58: `fault_kind` is 0 without a record and the code of the record's kind with one. -/
theorem statusOutputsShowTheRecord : Obligations.StatusOutputsShowTheRecord := by
  intro s r
  refine ⟨rfl, fun h => by rw [State.statusFaultKind, h], fun h => ?_⟩
  have hcode : s.statusFaultKind = r.kind.code := by rw [State.statusFaultKind, h]
  rw [hcode, State.statusFaultPc, State.statusFaultInfo, h]
  refine ⟨fun e => ?_, fun e => ?_, fun e => ?_, rfl, rfl⟩ <;> rw [e] <;> rfl

end Sys2Proof.Machine
end

section
/-!
The statements of 20_memory.md: the memory is its contents, and a store is seen by the next fetch.
-/

namespace Sys2Proof.Machine

/-! ### The memory is its contents -/

/-- With rising addresses, an entry is what its address reads as. -/
theorem Memory.readAt_of_mem {m : Memory} {c : Host.Cell} (h : m.Pairwise fun c d => c.1 < d.1)
    (hc : c ∈ m) : m.readAt c.1 = c.2 := by
  induction m with
  | nil => cases hc
  | cons d m ih =>
    obtain ⟨hd, hm⟩ := List.pairwise_cons.1 h
    rw [Memory.readAt_cons]
    rcases List.mem_cons.1 hc with rfl | hc
    · exact if_pos rfl
    · rw [if_neg (Nat.ne_of_gt (hd c hc)), ih hm hc]

/-- A cell that does not hold 0 has an entry. -/
theorem Memory.mem_of_readAt_ne_zero {m : Memory} {k : Nat} (h : m.readAt k ≠ 0) :
    (k, m.readAt k) ∈ m := by
  induction m with
  | nil => exact absurd (Memory.readAt_nil k) h
  | cons d m ih =>
    rw [Memory.readAt_cons] at h ⊢
    split at h
    · next hk => rw [if_pos hk, hk]; exact List.mem_cons_self
    · next hk => rw [if_neg hk]; exact List.mem_cons_of_mem _ (ih h)

/-- The entries of a canonical memory are its cells that do not hold 0. -/
theorem Memory.mem_iff_readAt {m : Memory} {c : Host.Cell} (h : m.wf) :
    c ∈ m ↔ c.2 ≠ 0 ∧ m.readAt c.1 = c.2 := by
  obtain ⟨hsorted, hcells⟩ := h
  refine ⟨fun hc => ⟨(hcells c hc).2, Memory.readAt_of_mem hsorted hc⟩, fun ⟨h0, e⟩ => ?_⟩
  have hmem : (c.1, m.readAt c.1) ∈ m := Memory.mem_of_readAt_ne_zero (e ▸ h0)
  rwa [e] at hmem

/-- Canonical memories with equal contents are equal: they have the same entries in the same order. -/
theorem Memory.eq_of_readAt_eq {m m' : Memory} (h : m.wf) (h' : m'.wf)
    (e : ∀ k, m.readAt k = m'.readAt k) : m = m' := by
  have : Std.Irrefl fun c d : Host.Cell => c.1 < d.1 := ⟨fun _ => Nat.lt_irrefl _⟩
  have : Std.Antisymm fun c d : Host.Cell => c.1 < d.1 := ⟨fun _ _ h1 h2 => absurd h2 (Nat.lt_asymm h1)⟩
  refine List.Pairwise.eq_of_mem_iff h.1 h'.1 fun c => ?_
  rw [Memory.mem_iff_readAt h, Memory.mem_iff_readAt h', e]

/-- Writing back what a cell holds changes no cell, so it changes nothing. -/
theorem Memory.writeAt_readAt {m : Memory} {k : Nat} (h : m.wf) (hk : k < Config.memSize) :
    m.writeAt k (m.readAt k) = m := by
  refine Memory.eq_of_readAt_eq (Memory.wf_writeAt _ h hk) h fun k' => ?_
  rw [Memory.readAt_writeAt_cases]
  split
  · next e => rw [e]
  · rfl

/-- Settles O55: a canonical memory is determined by its reads, and a write changes the read of one cell. -/
theorem memoryIsItsContents : Obligations.MemoryIsItsContents :=
  ⟨Memory.readAt_writeAt_cases, fun _ _ v => Memory.wf_writeAt v, fun _ _ => Memory.eq_of_readAt_eq,
    fun _ _ => Memory.writeAt_readAt⟩

/-! ### A store is seen by the next fetch -/

theorem withDecrementedSP_ok {s : State} (h : s.sp ≠ 0) (k : State → Result) :
    withDecrementedSP s k = k (s.setReg 7 (s.sp - 1)) :=
  if_neg h

/-- PUSH of a register that is there, with room on the stack, stores it below the stack top (R150). -/
theorem exec_push {a : Byte} {i : RegIx} {s : State} (ha : a.toNat = i.val) (h : s.pc + 1 ≤ 255)
    (hsp : s.sp ≠ 0) :
    exec (.push a) s = .next
      (((s.setReg 7 (s.sp - 1)).memWrite (s.sp - 1) ((s.setReg 7 (s.sp - 1)).reg i)).advance 2) := by
  refine (formR_ok ha h _).trans ?_
  rw [withDecrementedSP_ok hsp, State.setReg_sp]

/-- Inside the memory the fetch reads the byte at the program counter first. -/
theorem State.window_head? {s : State} (h : s.pc ≤ 255) : s.window.head? = some (s.mem.readAt s.pc) := by
  rw [State.window_eq_cons h, List.head?_cons]

/-- Settles O56: PUSH stores at `SP - 1`, which is where it leaves the program counter. -/
theorem storeIsSeenByTheNextFetch : Obligations.StoreIsSeenByTheNextFetch := by
  intro a i s t ha hi hsp h
  have hlt := s.sp.isLt
  have h0 : s.sp ≠ 0 := fun e => by simp [e] at hsp
  have hcell : (s.sp - 1).toNat = s.pc + 2 := by rw [decrement_toNat h0, hsp]; rfl
  rw [exec_push ha (by omega) h0, Host.Outcome.next.injEq] at h
  have hpc : t.pc = s.pc + 2 := by rw [← h]; rfl
  have hmem : t.mem = s.mem.writeAt (s.pc + 2) (s.reg i) := by
    rw [← h, State.advance_mem, State.memWrite_mem, State.setReg_mem, hcell,
      State.setReg_reg_of_ne s 7 _ hi]
  rw [State.window_head? (by omega), hpc, hmem, Memory.readAt_writeAt_cases, if_pos rfl]

end Sys2Proof.Machine
end

section
/-!
The statements of 30_encoding.md: decoding and encoding are inverse to each other, and the words of the opcode table.
-/

namespace Sys2Proof

/-! ### Decoding and encoding -/

/-- The entry of an instruction takes exactly the operand bytes of the instruction, whatever follows them (R84). -/
theorem Instr.takeOperands_operandBytes (i : Instr) (rest : List Byte) :
    i.mnemonic.takeOperands (i.operandBytes ++ rest) = some (i, rest) := by
  cases i <;> rfl

/-- An entry takes operand bytes in one way only: the instruction is one of that entry, and its operand bytes
are the ones taken. The cases are the operand counts. -/
theorem Mnemonic.takeOperands_eq_some {m : Mnemonic} {bytes rest : List Byte} {i : Instr}
    (h : m.takeOperands bytes = some (i, rest)) : i.mnemonic = m ∧ bytes = i.operandBytes ++ rest := by
  unfold Mnemonic.takeOperands at h
  split at h
  case h_4 => cases h
  all_goals
    next hn =>
      cases h
      exact ⟨m.build_mnemonic _ _, by rw [Mnemonic.build_operandBytes, hn]; rfl⟩

/-- The answers of the decoder, in both directions at once. The condition on the lookup fails for an entry whose byte
a table that is not injective gives to an earlier entry as well. -/
theorem decodeWith_eq_ok_iff {t : OpcodeTable} {bytes rest : List Byte} {i : Instr} :
    decodeWith t bytes = .ok (i, rest) ↔
      t.lookup (t i.mnemonic) = some i.mnemonic ∧ bytes = encodeWith t i ++ rest := by
  refine ⟨fun h => ?_, fun ⟨hl, e⟩ => ?_⟩
  · cases bytes with
    | nil => cases h
    | cons op tail =>
      rw [decodeWith] at h
      split at h
      · cases h
      · next m hl =>
        split at h
        · cases h
        · next htake =>
          cases h
          obtain ⟨rfl, rfl⟩ := Mnemonic.takeOperands_eq_some htake
          obtain rfl := OpcodeTable.byte_of_lookup hl
          exact ⟨hl, rfl⟩
  · simp only [e, encodeWith, List.cons_append, decodeWith, hl, Instr.takeOperands_operandBytes]

/-- Settles O22: under an injective table the lookup gives every entry for its own byte. -/
theorem decodeInvertsEncode : Obligations.DecodeInvertsEncode := fun _ ht i _ =>
  decodeWith_eq_ok_iff.2 ⟨OpcodeTable.lookup_byte ht i.mnemonic, rfl⟩

/-- Settles O23, the other direction, for every table. -/
theorem encodeInvertsDecode : Obligations.EncodeInvertsDecode := by
  intro t bytes i rest h
  obtain ⟨-, e⟩ := decodeWith_eq_ok_iff.1 h
  exact e

/-! ### The default opcode table -/

/-- Settles O24: the 23 values are read off the table. -/
theorem opcodeTableIsInjective : Obligations.OpcodeTableIsInjective :=
  ⟨Config.opcode_injective, rfl, Mnemonic.mem_all⟩

/-- The unit's decoder inverts its encoder. -/
theorem decode_encode_append (i : Instr) (rest : List Byte) : decode (encode i ++ rest) = .ok (i, rest) :=
  decodeInvertsEncode _ Config.opcode_injective i rest

/-- A byte that is not in the default table is rejected by name, whatever follows it (R70). -/
theorem decode_of_lookup_eq_none {op : Byte} {tail : List Byte} (h : Config.opcode.lookup op = none) :
    decode (op :: tail) = .error (.invalidOpcode op) := by
  rw [decode, decodeWith, h]

/-- Settles O25: the words of the source's program are the encodings of its instructions. -/
theorem sourceWordsDecode : Obligations.SourceWordsDecode :=
  ⟨decode_encode_append (.ldi 0 8) [], decode_encode_append (.ldi 1 9) [], decode_encode_append (.mul 0 1) [],
    decode_encode_append (.prn 0) [], decode_encode_append .hlt [], decode_of_lookup_eq_none (by decide),
    rfl, rfl, rfl, rfl⟩

/-- Settles O26: each word is the encoding of its instruction, the one of NOT with a byte after it. -/
theorem defaultWordsDecode : Obligations.DefaultWordsDecode :=
  ⟨decode_encode_append (.add 7 2) [], decode_encode_append (.cmp 3 4) [], decode_encode_append (.addi 1 0xFF) [],
    decode_encode_append (.not 5) [0xFF], decode_encode_append (.jeq 2) [], decode_encode_append (.push 6) [],
    decode_encode_append (.call 1) [], decode_encode_append .ret []⟩

end Sys2Proof
end

section
/-!
The statements of 40_fetch_decode_sequencer.md: what a step fetches, the checks of the operand bytes in their order,
what an instruction changes, and that it depends on its declared bytes only.
-/

namespace Sys2Proof.Machine

/-! ### A step by its fetch -/

/-- A unit that is Halted has no step (R81). -/
theorem step_of_halted {s : State} (h : s.running = false) : step s = .fault (.halted s.fault) :=
  if_neg (by simp [h])

/-- A Running unit whose fetch answers executes what was fetched (R87). -/
theorem step_of_fetch_ok {s : State} {i : Instr} (h : s.running = true)
    (hf : fetch Config.opcode s = .ok i) : step s = exec i s := by
  rw [step, stepWith_of_running h, hf]

/-- A Running unit whose fetch fails raises the fetch's fault. -/
theorem step_of_fetch_error {s : State} {kind : FaultKind} {info : Int} (h : s.running = true)
    (hf : fetch Config.opcode s = .error (kind, info)) : step s = raise kind info s := by
  rw [step, stepWith_of_running h, hf]

/-- Settles O4. -/
theorem haltedUnitHasNoStep : Obligations.HaltedUnitHasNoStep := fun _ h =>
  ⟨step_of_halted h, rfl⟩

/-- Every instruction has a next state, because taking a fault is one. -/
theorem exec_has_next (f : Instr) (s : State) : ∃ t, exec f s = .next t := by
  rcases exec_cases f s with ⟨kind, info, -, e⟩ | ⟨t, -, e⟩
  · exact ⟨s.raised kind info, e⟩
  · exact ⟨t, e⟩

/-- Settles O5: the fetch fails, which is a next state, or answers an instruction, which has one. -/
theorem runningUnitAlwaysSteps : Obligations.RunningUnitAlwaysSteps := by
  intro s h
  cases hf : fetch Config.opcode s with
  | error fault => exact ⟨_, step_of_fetch_error h hf⟩
  | ok i =>
    rw [step_of_fetch_ok h hf]
    exact exec_has_next i s

/-! ### The phases of the fetch -/

theorem fetch_of_pc_beyond {t : OpcodeTable} {s : State} (h : 255 < s.pc) :
    fetch t s = .error (.outOfRange, 256) := by
  rw [fetch_eq, if_pos h]

theorem fetch_of_lookup_eq_none {t : OpcodeTable} {s : State} (hp : s.pc ≤ 255)
    (h : t.lookup (s.mem.readAt s.pc) = none) :
    fetch t s = .error (.invalidOpcode, (s.mem.readAt s.pc).toNat) := by
  rw [fetch_eq, if_neg (Nat.not_lt.2 hp), h]

theorem fetch_of_operands_beyond {t : OpcodeTable} {s : State} {m : Mnemonic} (hp : s.pc ≤ 255)
    (h : t.lookup (s.mem.readAt s.pc) = some m) (hn : 255 < s.pc + m.operandCount) :
    fetch t s = .error (.outOfRange, 256) := by
  rw [fetch_eq, if_neg (Nat.not_lt.2 hp), h]
  exact if_pos hn

theorem fetch_of_lookup_eq_some {t : OpcodeTable} {s : State} {m : Mnemonic}
    (h : t.lookup (s.mem.readAt s.pc) = some m) (hn : s.pc + m.operandCount ≤ 255) :
    fetch t s = .ok (m.build (s.mem.readAt (s.pc + 1)) (s.mem.readAt (s.pc + 2))) := by
  rw [fetch_eq, if_neg (by omega), h]
  exact if_neg (Nat.not_lt.2 hn)

/-- Settles O16. -/
theorem opcodeFetchBeyondMemory : Obligations.OpcodeFetchBeyondMemory :=
  ⟨fun _ h hp => step_of_fetch_error h (fetch_of_pc_beyond (by omega)), fun _ => State.window_head?⟩

/-- Settles O17. -/
theorem operandFetchBeyondMemory : Obligations.OperandFetchBeyondMemory := fun _ _ h hp hm =>
  ⟨fun hn => step_of_fetch_error h (fetch_of_operands_beyond hp hm hn),
    fun hn => step_of_fetch_ok h (fetch_of_lookup_eq_some hm hn)⟩

/-! ### The fetch by the encoding -/

/-- An instruction is `1 + N` bytes long (R60). -/
theorem encodeWith_length (t : OpcodeTable) (i : Instr) : (encodeWith t i).length = 1 + i.operandCount := by
  cases i <;> rfl

/-- The fetch answers `i` exactly when the window begins with the encoding of `i`. -/
theorem fetch_eq_ok_iff_prefix {t : OpcodeTable} {s : State} {i : Instr} :
    fetch t s = .ok i ↔ t.lookup (t i.mnemonic) = some i.mnemonic ∧ encodeWith t i <+: s.window := by
  have hdecode : fetch t s = .ok i ↔ ∃ rest, decodeWith t s.window = .ok (i, rest) := by
    unfold fetch
    split <;> simp [*]
  simp only [hdecode, decodeWith_eq_ok_iff, exists_and_left, List.IsPrefix,
    eq_comm (a := s.window)]

/-- The window begins with the encoding of `i` exactly when the bytes of `i` fit and stand at the program counter. -/
theorem encodeWith_prefix_window {t : OpcodeTable} {s : State} {i : Instr} :
    encodeWith t i <+: s.window ↔
      s.pc + i.operandCount ≤ 255 ∧
        ∀ k (h : k < (encodeWith t i).length), s.mem.readAt (s.pc + k) = (encodeWith t i)[k] := by
  have hn := i.mnemonic.operandCount_le
  have hfit : (encodeWith t i).length ≤ s.window.length ↔ s.pc + i.operandCount ≤ 255 := by
    rw [encodeWith_length, State.window_length, Instr.operandCount]
    omega
  simp only [List.prefix_iff_getElem, State.window_getElem, hfit, exists_prop, eq_comm]

/-- The fetch answers `i` exactly when the bytes of `i` fit and stand at the program counter. The condition on the
lookup holds under every injective table. -/
theorem fetch_eq_ok_iff {t : OpcodeTable} {s : State} {i : Instr} :
    fetch t s = .ok i ↔
      t.lookup (t i.mnemonic) = some i.mnemonic ∧ s.pc + i.operandCount ≤ 255 ∧
        ∀ k (h : k < (encodeWith t i).length), s.mem.readAt (s.pc + k) = (encodeWith t i)[k] := by
  rw [fetch_eq_ok_iff_prefix, encodeWith_prefix_window]

/-- Settles O13. -/
theorem stepRunsTheDecodedInstruction : Obligations.StepRunsTheDecodedInstruction := fun i _ h hn hbytes =>
  step_of_fetch_ok h
    (fetch_eq_ok_iff.2 ⟨OpcodeTable.lookup_byte Config.opcode_injective i.mnemonic, hn, hbytes⟩)

/-! ### The checks of the operand bytes -/

theorem operandFaults_of_formZ {f : Instr} {k : State → Result} (hn : f.operandCount = 0)
    (hr : f.registerOperands = []) (he : ∀ s, exec f s = formZ s (k s)) : OperandFaults f := by
  intro s
  rw [hn, hr, he]
  exact ⟨fun h => withOperandSpace_bad h _, fun _ _ hc => by cases hc⟩

theorem operandFaults_of_formR {f : Instr} {a : Byte} {k : State → RegIx → Result}
    (hn : f.operandCount = 1) (hr : f.registerOperands = [a])
    (he : ∀ s, exec f s = formR a s (k s)) : OperandFaults f := by
  intro s
  rw [hn, hr, he]
  exact ⟨fun h => withOperandSpace_bad h _, fun h _ hc => formR_bad h hc _⟩

theorem operandFaults_of_formRI {f : Instr} {a : Byte} {k : State → RegIx → Result}
    (hn : f.operandCount = 2) (hr : f.registerOperands = [a])
    (he : ∀ s, exec f s = formRI a s (k s)) : OperandFaults f := by
  intro s
  rw [hn, hr, he]
  exact ⟨fun h => withOperandSpace_bad h _, fun h _ hc => formRI_bad h hc _⟩

/-- Settles O18: every instruction makes the checks of its format before anything else (R61, R86). -/
theorem badRegisterIndexIsReported : Obligations.BadRegisterIndexIsReported := by
  intro i
  cases i with
  | hlt | ret => exact operandFaults_of_formZ rfl rfl fun _ => rfl
  | prn | not | jmp | jeq | jne | push | pop | call => exact operandFaults_of_formR rfl rfl fun _ => rfl
  | ldi | addi => exact operandFaults_of_formRI rfl rfl fun _ => rfl
  | mul | add | sub | div | mod | and | or | xor | shl | shr | cmp =>
    exact operandFaults_of_formRR rfl rfl fun _ => rfl

/-- A declared operand byte a of 8 or more is the first bad one: every format with operands has a register there (R61). -/
theorem Mnemonic.firstBad_build_of_bad_a {m : Mnemonic} {a b : Byte} (hn : 1 ≤ m.operandCount)
    (ha : 7 < a.toNat) : firstBad (m.build a b).registerOperands = some a := by
  have ha' : 8 ≤ a.toNat := ha
  rw [Mnemonic.operandCount] at hn
  rw [Mnemonic.build_registerOperands]
  cases hf : m.format with
  | Z => rw [hf] at hn; cases hn
  | R | RR | RI => simp [firstBad, ha']

/-- In format `RR` a bad byte b is the first bad one when a names a register. -/
theorem Mnemonic.firstBad_build_of_bad_b {m : Mnemonic} {a b : Byte} (hm : m.format = .RR)
    (ha : a.toNat ≤ 7) (hb : 7 < b.toNat) : firstBad (m.build a b).registerOperands = some b := by
  have ha' : ¬ 8 ≤ a.toNat := by omega
  have hb' : 8 ≤ b.toNat := hb
  rw [Mnemonic.build_registerOperands, hm]
  simp [firstBad, ha', hb']

/-- Settles O14, check by check: the first three are the fetch's, the two of the register operands are made by `exec`. -/
theorem stepIsThePseudocode : Obligations.StepIsThePseudocode := by
  intro s h hp
  unfold pseudocodeStep
  split
  · exact step_of_fetch_error h (fetch_of_pc_beyond (by omega))
  have hp : s.pc ≤ 255 := by omega
  dsimp only
  split
  · next hop => exact step_of_fetch_error h (fetch_of_lookup_eq_none hp hop)
  next m hop =>
  obtain ⟨hbeyond, hinside⟩ := operandFetchBeyondMemory s m h hp hop
  split
  · next hn => exact hbeyond hn
  next hn =>
  have hn : s.pc + m.operandCount ≤ 255 := Nat.le_of_not_lt hn
  rw [hinside hn]
  obtain ⟨-, hbad⟩ := badRegisterIndexIsReported
    (m.build (s.mem.readAt (s.pc + 1)) (s.mem.readAt (s.pc + 2))) s
  rw [Instr.operandCount, Mnemonic.build_mnemonic] at hbad
  split
  · next hbad_a =>
    obtain ⟨hcount, ha⟩ := hbad_a
    exact hbad hn _ (Mnemonic.firstBad_build_of_bad_a hcount ha)
  split
  · next hgood_a hbad_b =>
    obtain ⟨hformat, hb⟩ := hbad_b
    have hcount : 1 ≤ m.operandCount := by rw [Mnemonic.operandCount, hformat]; decide
    exact hbad hn _ (Mnemonic.firstBad_build_of_bad_b hformat (by omega) hb)
  · rfl

/-! ### What an instruction changes -/

/-- The instructions that store are PUSH and CALL (R25). -/
theorem storesBelowStackTop_eq_false {f : Instr} (hpush : ∀ a, f ≠ .push a) (hcall : ∀ a, f ≠ .call a) :
    f.storesBelowStackTop = false := by
  cases f with
  | push a => exact absurd rfl (hpush a)
  | call a => exact absurd rfl (hcall a)
  | _ => rfl

theorem Does.mem_eq {f : Instr} {s t : State} (h : Does s f t) (hf : f.storesBelowStackTop = false) :
    t.mem = s.mem := by
  cases h with
  | push | call => cases hf
  | jeq | jne => split <;> rfl
  | _ => rfl

/-- What PUSH or CALL stores does not depend on the memory: with other contents the same instruction stores the same
byte in the same cell, and leaves the same state otherwise. -/
theorem Does.store {f : Instr} {s t : State} (h : Does s f t) (hf : f.storesBelowStackTop = true) :
    ∃ v, t.mem = s.mem.writeAt (s.sp - 1).toNat v ∧
      ∀ mem', Does { s with mem := mem' } f { t with mem := mem'.writeAt (s.sp - 1).toNat v } := by
  cases h with
  | push hp hi h0 => exact ⟨_, rfl, fun mem' => Does.push (s := { s with mem := mem' }) hp hi h0⟩
  | call hp hi h0 => exact ⟨_, rfl, fun mem' => Does.call (s := { s with mem := mem' }) hp hi h0⟩
  | _ => cases hf

/-- An instruction changes no cell other than the one below the stack top. -/
theorem Does.readAt_eq {f : Instr} {s t : State} {k : Nat} (h : Does s f t) (hk : k ≠ (s.sp - 1).toNat) :
    t.mem.readAt k = s.mem.readAt k := by
  cases hf : f.storesBelowStackTop with
  | false => rw [h.mem_eq hf]
  | true =>
    obtain ⟨v, e, -⟩ := h.store hf
    rw [e, Memory.readAt_writeAt_cases, if_neg hk]

/-- The fetch-advance law (R88, R90). -/
theorem Does.pc_eq {f : Instr} {s t : State} (h : Does s f t) (hf : f.redirects = false) :
    t.pc = s.pc + 1 + f.operandCount := by
  cases h with
  | jmp | jeq | jne | call | ret => cases hf
  | _ => rfl

/-- Only PRN writes `OUT` (R24). -/
theorem Does.out_eq {f : Instr} {s t : State} (h : Does s f t) (hf : ∀ a, f ≠ .prn a) : t.out = s.out := by
  cases h with
  | prn => exact absurd rfl (hf _)
  | jeq | jne => split <;> rfl
  | _ => rfl

/-- Settles O20: without a fault the instruction does what it does, and each clause is a frame of that. -/
theorem fetchAdvanceLaw : Obligations.FetchAdvanceLaw := by
  intro i s t h _ ht
  rcases exec_next_cases h with ⟨kind, info, -, rfl⟩ | hd
  · cases ht
  · exact ⟨hd.pc_eq, fun _ => hd.reg_eq,
      fun hpush hcall k => by rw [hd.mem_eq (storesBelowStackTop_eq_false hpush hcall)],
      fun _ => hd.readAt_eq, hd.running_eq, hd.out_eq⟩

/-! ### `Raises` and `Does` determine `exec` -/

theorem withDecrementedSP_bad {s : State} (h : s.sp = 0) (k : State → Result) :
    withDecrementedSP s k = raise .outOfRange (-1) s :=
  if_pos h

theorem withAddressByte_ok {n : Nat} (h : n ≤ 255) (s : State) (k : Byte → Result) :
    withAddressByte n s k = k (BitVec.ofNat 8 n) :=
  if_neg (Nat.not_lt.2 h)

theorem withAddressByte_bad {n : Nat} (h : 255 < n) (s : State) (k : Byte → Result) :
    withAddressByte n s k = raise .outOfRange 256 s :=
  if_pos h

/-- POP checks what it increments: the popped byte for register 7, `SP` for any other (R151). -/
theorem exec_pop {a : Byte} {i : RegIx} {s : State} (hi : a.toNat = i.val) (h : s.pc + 1 ≤ 255) :
    exec (.pop a) s =
      withAddressByte ((if i = 7 then s.memRead s.sp else s.sp).toNat + 1) s fun sp' =>
        .next (((s.setReg i (s.memRead s.sp)).setReg 7 sp').advance 2) :=
  formR_ok hi h _

/-- CALL with room on the stack checks its return address (R152). -/
theorem exec_call {a : Byte} {i : RegIx} {s : State} (hi : a.toNat = i.val) (h : s.pc + 1 ≤ 255)
    (h0 : s.sp ≠ 0) :
    exec (.call a) s =
      withAddressByte (s.pc + 2) s fun ret =>
        .next (((s.setReg 7 (s.sp - 1)).memWrite (s.sp - 1) ret).jumpTo ((s.setReg 7 (s.sp - 1)).reg i)) := by
  refine (formR_ok hi h _).trans ?_
  rw [withDecrementedSP_ok h0, State.setReg_sp]

/-- RET checks the incremented `SP` (R153). -/
theorem exec_ret {s : State} (h : s.pc ≤ 255) :
    exec .ret s =
      withAddressByte (s.sp.toNat + 1) s fun sp' =>
        .next ((s.setReg 7 sp').jumpTo (s.memRead s.sp)) :=
  formZ_ok h _

/-- The converse of `exec_cases` for faults: what `Raises` lists is raised. -/
theorem Raises.exec_eq {s : State} {f : Instr} {kind : FaultKind} {info : Int} (h : Raises s f kind info) :
    exec f s = raise kind info s := by
  cases h with
  | space h => exact (badRegisterIndexIsReported f s).1 h
  | index h hb => exact (badRegisterIndexIsReported f s).2 h _ hb
  | divisor hf h hi hj h0 =>
    rcases hf with rfl | rfl <;> exact (formRR_ok hi hj h _).trans (if_pos h0)
  | decrement hf h hi h0 =>
    rcases hf with rfl | rfl <;> exact (formR_ok hi h _).trans (withDecrementedSP_bad h0 _)
  | returnAddress h hi h0 hn => exact (exec_call hi h h0).trans (withAddressByte_bad hn s _)
  | popIncrement h hi h7 hn =>
    rw [exec_pop hi h, if_neg h7, withAddressByte_bad hn]
  | popSpIncrement h hi hn =>
    rw [exec_pop (i := 7) hi h, if_pos rfl, withAddressByte_bad hn]
  | retIncrement h hn => exact (exec_ret h).trans (withAddressByte_bad hn s _)

/-- The converse of `exec_cases` without a fault: what `Does` lists is done. -/
theorem Does.exec_eq {s t : State} {f : Instr} (h : Does s f t) : exec f s = .next t := by
  cases h with
  | hlt h => exact formZ_ok h _
  | ldi h hi | addi h hi => exact formRI_ok hi h _
  | prn h hi | not h hi | jmp h hi | jeq h hi => exact formR_ok hi h _
  | jne h hi => exact (formR_ok hi h _).trans (congrArg _ (jump_negated _ _ _))
  | mul h hi hj | add h hi hj | sub h hi hj | and h hi hj | or h hi hj | xor h hi hj | shl h hi hj
  | shr h hi hj | cmp h hi hj => exact formRR_ok hi hj h _
  | div h hi hj h0 | mod h hi hj h0 => exact (formRR_ok hi hj h _).trans (if_neg h0)
  | push h hi h0 => exact exec_push hi h h0
  | pop h hi h7 hn =>
    rw [exec_pop hi h, if_neg h7, withAddressByte_ok hn]
  | popSp h hi hn =>
    rw [exec_pop (i := 7) hi h, if_pos rfl, withAddressByte_ok hn]
  | call h hi h0 => exact (exec_call hi (Nat.le_of_succ_le h) h0).trans (withAddressByte_ok h s _)
  | ret h hn => exact (exec_ret h).trans (withAddressByte_ok hn s _)

/-! ### The memory an instruction does not read -/

theorem State.memRead_congr_mem {s : State} {mem' : Memory} {addr : Byte}
    (h : mem'.readAt addr.toNat = s.mem.readAt addr.toNat) :
    State.memRead { s with mem := mem' } addr = s.memRead addr :=
  h

theorem State.ite_with_mem (c : Prop) [Decidable c] (t u : State) (mem' : Memory) :
    ({ (if c then t else u) with mem := mem' } : State) =
      if c then { t with mem := mem' } else { u with mem := mem' } := by
  split <;> rfl

/-- A fault depends on memory only by the cell at `SP`, and only for POP and RET. -/
theorem Raises.congr_mem {s : State} {f : Instr} {kind : FaultKind} {info : Int} {mem' : Memory}
    (h : Raises s f kind info)
    (hload : f.loadsStackTop = true → mem'.readAt s.sp.toNat = s.mem.readAt s.sp.toNat) :
    Raises { s with mem := mem' } f kind info := by
  cases h with
  | space h => exact .space h
  | index h hb => exact .index h hb
  | divisor hf h hi hj h0 => exact .divisor hf h hi hj h0
  | decrement hf h hi h0 => exact .decrement hf h hi h0
  | returnAddress h hi h0 hn => exact .returnAddress h hi h0 hn
  | popIncrement h hi h7 hn => exact .popIncrement h hi h7 hn
  | popSpIncrement h hi hn =>
    rw [← State.memRead_congr_mem (hload rfl)] at hn
    exact .popSpIncrement h hi hn
  | retIncrement h hn => exact .retIncrement h hn

/-- An instruction that does not store leaves the same state but for the memory, which it does not change. -/
theorem Does.congr_mem {f : Instr} {s t : State} {mem' : Memory} (h : Does s f t)
    (hf : f.storesBelowStackTop = false)
    (hload : f.loadsStackTop = true → mem'.readAt s.sp.toNat = s.mem.readAt s.sp.toNat) :
    Does { s with mem := mem' } f { t with mem := mem' } := by
  cases h with
  | push | call => cases hf
  | hlt | ldi | prn | mul | add | sub | div | mod | and | or | xor | shl | shr | not | addi | cmp | jmp =>
    constructor <;> assumption
  | jeq h hi =>
    rw [State.ite_with_mem]
    exact .jeq h hi
  | jne h hi =>
    rw [State.ite_with_mem]
    exact .jne h hi
  | pop h hi h7 hn =>
    rw [← State.memRead_congr_mem (hload rfl)]
    exact .pop h hi h7 hn
  | popSp h hi hn =>
    rw [← State.memRead_congr_mem (hload rfl)] at hn ⊢
    exact .popSp h hi hn
  | ret h hn =>
    rw [← State.memRead_congr_mem (hload rfl)]
    exact .ret h hn

/-- The bytes of the fetched instruction decide the fetch (R84, R71). -/
theorem fetch_congr_mem {t : OpcodeTable} {s : State} {i : Instr} {mem' : Memory} (h : fetch t s = .ok i)
    (hbytes : ∀ k, k ≤ i.operandCount → mem'.readAt (s.pc + k) = s.mem.readAt (s.pc + k)) :
    fetch t { s with mem := mem' } = .ok i := by
  obtain ⟨hl, hn, hs⟩ := fetch_eq_ok_iff.1 h
  refine fetch_eq_ok_iff.2 ⟨hl, hn, fun k hk => ?_⟩
  have hlen := encodeWith_length t i
  exact (hbytes k (by omega)).trans (hs k hk)

/-- Settles O19: the other memory gives the same fetch, then the same fault, or the same effect with the same store. -/
theorem undeclaredBytesHaveNoInfluence : Obligations.UndeclaredBytesHaveNoInfluence := by
  intro s mem' i t hrun hf hbytes hload hstep
  rw [step_of_fetch_ok hrun hf] at hstep
  rw [step_of_fetch_ok (s := { s with mem := mem' }) hrun (fetch_congr_mem hf hbytes)]
  rcases exec_next_cases hstep with ⟨kind, info, hr, rfl⟩ | hd
  · exact ⟨_, (hr.congr_mem hload).exec_eq, rfl, fun _ h => absurd h Bool.false_ne_true,
      fun _ _ => ⟨rfl, rfl⟩⟩
  cases hs : i.storesBelowStackTop with
  | false =>
    exact ⟨_, (hd.congr_mem hs hload).exec_eq, rfl, fun h => absurd h Bool.false_ne_true,
      fun k _ => ⟨by rw [hd.mem_eq hs], rfl⟩⟩
  | true =>
    obtain ⟨v, e, hd'⟩ := hd.store hs
    have hgo : t.running = true := (hd.running_eq (by rintro rfl; cases hs)).trans hrun
    refine ⟨_, (hd' mem').exec_eq, rfl, fun _ _ => ?_, fun k hk => ?_⟩
    · simp only [e, Memory.readAt_writeAt_cases, if_pos]
    · simp only [e, Memory.readAt_writeAt_cases, if_neg (hk rfl hgo), and_self]

end Sys2Proof.Machine
end

section
/-!
The statements of 41_system_and_data.md: HLT, LDI and PRN, each by its row of `Does` and the frames of `Does`.
-/

namespace Sys2Proof.Machine

/-- A state with the same register file and the same memory keeps every register and every cell. -/
theorem keepsExcept_nil_of_eq {s t : State} (hregs : t.regs = s.regs) (hmem : t.mem = s.mem) :
    KeepsExcept [] [] s t :=
  ⟨fun r _ => congrArg (·[r]) hregs, fun k _ => congrArg (·.readAt k) hmem⟩

/-- Settles O27: in format `Z` the only check is that the program counter is an address (R82). -/
theorem hltHaltsAndAdvances : Obligations.HltHaltsAndAdvances := by
  refine ⟨rfl, badRegisterIndexIsReported .hlt, fun s h => ?_⟩
  have hd : Does s .hlt (s.halt.advance 1) := .hlt h
  exact ⟨_, hd.exec_eq, rfl, hd.pc_eq rfl, hd.fault_eq, hd.out_eq nofun, keepsExcept_nil_of_eq rfl rfl⟩

/-- Settles O28: the immediate is written as it stands, whatever the destination (R65). -/
theorem ldiLoadsTheImmediate : Obligations.LdiLoadsTheImmediate := by
  refine fun a b => ⟨rfl, badRegisterIndexIsReported (.ldi a b), fun i s ha h => ?_⟩
  have hd : Does s (.ldi a b) ((s.setReg i b).advance 3) := .ldi h ha
  exact ⟨_, hd.exec_eq, State.setReg_reg_self s i b, hd.pc_eq rfl,
    keepsExcept_setReg_advance s i b 3, statusSame_setReg_advance s i b 3⟩

/-- Settles O29: the register's value goes to the port; the register file and the memory are the old ones. -/
theorem prnPresentsTheRegister : Obligations.PrnPresentsTheRegister := by
  refine fun a => ⟨rfl, badRegisterIndexIsReported (.prn a), fun i s ha h => ?_⟩
  have hd : Does s (.prn a) ((s.emit (s.reg i)).advance 2) := .prn h ha
  exact ⟨_, hd.exec_eq, State.emit_out s (s.reg i), hd.pc_eq rfl, keepsExcept_nil_of_eq rfl rfl,
    hd.running_eq nofun, hd.fault_eq⟩

end Sys2Proof.Machine
end

section
/-!
The statements of 42_alu.md for the instructions that write their result to `x[a]`: each by its row of `Does`, and the
numbers by the lemmas of the ALU functions. The operand faults are those of every instruction (R86).
-/

namespace Sys2Proof.Machine

theorem State.setReg_advance_reg_self (s : State) (i : RegIx) (v : Byte) (n : Nat) :
    ((s.setReg i v).advance n).reg i = v := by
  rw [State.advance_reg, State.setReg_reg_self]

/-- What writes one register and advances has a next state with that value in it, and nothing else changed (R111);
`P` is what is to be shown of that next state because of the value. -/
theorem Does.writesRegister {f : Instr} {s : State} {i : RegIx} {v : Byte} {n : Nat} {P : State → Prop}
    (h : Does s f ((s.setReg i v).advance n)) (hP : ∀ t : State, t.reg i = v → P t) :
    ∃ t, exec f s = .next t ∧ P t ∧ t.pc = s.pc + n ∧ KeepsExcept [i] [] s t ∧ StatusSame s t :=
  ⟨_, h.exec_eq, hP _ (State.setReg_advance_reg_self s i v n), rfl,
    keepsExcept_setReg_advance s i v n, statusSame_setReg_advance s i v n⟩

/-- The value such an instruction leaves in the register of its destination, in any next state it answers. -/
theorem Does.reg_of_exec {f : Instr} {s t : State} {i : RegIx} {v : Byte} {n : Nat}
    (h : Does s f ((s.setReg i v).advance n)) (ht : exec f s = .next t) : t.reg i = v := by
  obtain rfl : (s.setReg i v).advance n = t := Host.Outcome.next.inj (h.exec_eq.symm.trans ht)
  exact State.setReg_advance_reg_self s i v n

/-! ### Division -/

/-- Settles O35: the two results are the natural numbers' quotient and remainder, whose law is `Nat.div_add_mod`. -/
theorem divAndModAgree : Obligations.DivAndModAgree := by
  intro a b i j s q r ha hb h h0 hq hr
  have hquot : (q.reg i).toNat = (s.reg i).toNat / (s.reg j).toNat := by
    rw [(Does.div h ha hb h0).reg_of_exec hq, aluDiv_toNat]
  have hrem : (r.reg i).toNat = (s.reg i).toNat % (s.reg j).toNat := by
    rw [(Does.mod h ha hb h0).reg_of_exec hr, aluMod_toNat]
  have hpos : 0 < (s.reg j).toNat := Nat.pos_of_ne_zero fun e => h0 (BitVec.eq_of_toNat_eq e)
  rw [hquot, hrem]
  exact ⟨(Nat.div_add_mod _ _).symm, Nat.mod_lt _ hpos⟩

/-- Settles O33: a zero divisor is the fault of `Raises`, any other gives the quotient. -/
theorem divGivesTheQuotient : Obligations.DivGivesTheQuotient :=
  fun a b => ⟨badRegisterIndexIsReported (.div a b), fun _ _ _ ha hb h =>
    ⟨fun h0 => (Raises.divisor (.inl rfl) h ha hb h0).exec_eq,
      fun h0 => (Does.div h ha hb h0).writesRegister fun _ e => by rw [e, aluDiv_toNat]⟩⟩

/-- Settles O34: a zero divisor is the fault of `Raises`, any other gives the remainder. -/
theorem modGivesTheRemainder : Obligations.ModGivesTheRemainder :=
  fun a b => ⟨badRegisterIndexIsReported (.mod a b), fun _ _ _ ha hb h =>
    ⟨fun h0 => (Raises.divisor (.inr rfl) h ha hb h0).exec_eq,
      fun h0 => (Does.mod h ha hb h0).writesRegister fun _ e => by rw [e, aluMod_toNat]⟩⟩

/-! ### Shifts -/

/-- From an amount of 8 up, 256 divides the shifted value (R125). -/
theorem aluShl_eq_zero {x y : Byte} (h : 8 ≤ y.toNat) : aluShl x y = 0 := by
  have hdvd : 2 ^ 8 ∣ x.toNat * 2 ^ y.toNat := (pow_dvd_pow 2 h).mul_left x.toNat
  exact BitVec.eq_of_toNat_eq ((aluShl_toNat x y).trans (Nat.mod_eq_zero_of_dvd hdvd))

/-- From an amount of 8 up, the divisor exceeds every byte (R125). -/
theorem aluShr_eq_zero {x y : Byte} (h : 8 ≤ y.toNat) : aluShr x y = 0 := by
  have hlt : x.toNat < 2 ^ y.toNat := x.isLt.trans_le (Nat.pow_le_pow_right Nat.two_pos h)
  exact BitVec.eq_of_toNat_eq ((aluShr_toNat x y).trans (Nat.div_eq_of_lt hlt))

/-- Settles O42: both results are functions of the whole amount, which are 0 from 8 up. -/
theorem shiftAmountIsTheWholeRegister : Obligations.ShiftAmountIsTheWholeRegister := by
  intro a b i j s ha hb h
  have hl := Does.shl h ha hb
  have hr := Does.shr h ha hb
  have el := hl.reg_of_exec hl.exec_eq
  have er := hr.reg_of_exec hr.exec_eq
  exact ⟨_, _, hl.exec_eq, hr.exec_eq, hl.fault_eq, hr.fault_eq,
    by rw [el, aluShl_toNat], by rw [er, aluShr_toNat],
    fun h8 => ⟨el.trans (aluShl_eq_zero h8), er.trans (aluShr_eq_zero h8)⟩⟩

/-- Settles O40. -/
theorem shlMultipliesByAPower : Obligations.ShlMultipliesByAPower :=
  fun a b => ⟨badRegisterIndexIsReported (.shl a b), fun _ _ _ ha hb h =>
    (Does.shl h ha hb).writesRegister fun _ e => by rw [e, aluShl_toNat]⟩

/-- Settles O41. -/
theorem shrDividesByAPower : Obligations.ShrDividesByAPower :=
  fun a b => ⟨badRegisterIndexIsReported (.shr a b), fun _ _ _ ha hb h =>
    (Does.shr h ha hb).writesRegister fun _ e => by rw [e, aluShr_toNat]⟩

/-! ### Sums and products -/

/-- Settles O30: the one ALU instruction whose opcode byte is the source's (R67). -/
theorem mulKeepsTheLowByte : Obligations.MulKeepsTheLowByte :=
  fun a b => ⟨rfl, badRegisterIndexIsReported (.mul a b), fun _ _ _ ha hb h =>
    (Does.mul h ha hb).writesRegister fun _ e => by rw [e, aluMul_toNat]⟩

/-- Settles O31. -/
theorem addWraps : Obligations.AddWraps :=
  fun a b => ⟨badRegisterIndexIsReported (.add a b), fun _ _ _ ha hb h =>
    (Does.add h ha hb).writesRegister fun _ e => by rw [e, aluAdd_toNat]⟩

/-- Settles O32: the difference is an integer's, reduced modulo 256. -/
theorem subWraps : Obligations.SubWraps :=
  fun a b => ⟨badRegisterIndexIsReported (.sub a b), fun _ _ _ ha hb h =>
    (Does.sub h ha hb).writesRegister fun _ e => by rw [e, aluSub_toNat]⟩

/-- Settles O43: the addition of ADD, with the operand byte itself as the right source. -/
theorem addiAddsTheImmediate : Obligations.AddiAddsTheImmediate :=
  fun a b => ⟨badRegisterIndexIsReported (.addi a b), fun _ _ ha h =>
    (Does.addi h ha).writesRegister fun _ e => by rw [e, aluAdd_toNat]⟩

/-! ### Bitwise operations -/

/-- Settles O36. -/
theorem andIsBitwise : Obligations.AndIsBitwise :=
  fun a b => ⟨badRegisterIndexIsReported (.and a b), fun _ _ _ ha hb h =>
    (Does.and h ha hb).writesRegister fun _ e _ => by rw [e, BitVec.getLsbD_and]⟩

/-- Settles O37. -/
theorem orIsBitwise : Obligations.OrIsBitwise :=
  fun a b => ⟨badRegisterIndexIsReported (.or a b), fun _ _ _ ha hb h =>
    (Does.or h ha hb).writesRegister fun _ e _ => by rw [e, BitVec.getLsbD_or]⟩

/-- Settles O38. -/
theorem xorIsBitwise : Obligations.XorIsBitwise :=
  fun a b => ⟨badRegisterIndexIsReported (.xor a b), fun _ _ _ ha hb h =>
    (Does.xor h ha hb).writesRegister fun _ e _ => by rw [e, BitVec.getLsbD_xor]⟩

/-- Settles O39: two bytes long, so the advance is by 2. -/
theorem notComplements : Obligations.NotComplements :=
  fun a => ⟨badRegisterIndexIsReported (.not a), fun _ _ ha h =>
    (Does.not h ha).writesRegister fun _ e => by rw [e, aluNot_toNat]⟩

end Sys2Proof.Machine
end

section
/-!
The statements of 43_jumps.md: JMP, JEQ and JNE, each by its row of `Does`, the frames of `Does`, and bit 0 of register 5.
-/

namespace Sys2Proof.Machine

/-- An instruction that redirects the program counter and writes no register (so is not CALL or RET) changes nothing
else (R141 to R143). -/
theorem Does.jump_frame {f : Instr} {s t : State} (h : Does s f t) (hf : f.redirects = true)
    (hw : ∀ r, ¬ f.mayWrite r) : KeepsExcept [] [] s t ∧ StatusSame s t := by
  have hhlt : f ≠ .hlt := by rintro rfl; cases hf
  have hprn : ∀ a, f ≠ .prn a := by rintro a rfl; cases hf
  have hpush : ∀ a, f ≠ .push a := by rintro a rfl; cases hf
  have hcall : ∀ a, f ≠ .call a := by rintro a rfl; exact hw 7 rfl
  have hmem : t.mem = s.mem := h.mem_eq (storesBelowStackTop_eq_false hpush hcall)
  exact ⟨⟨fun r _ => h.reg_eq (hw r), fun k _ => congrArg (·.readAt k) hmem⟩,
    h.running_eq hhlt, h.fault_eq, h.out_eq hprn⟩

/-- E is the parity of register 5 (R18), whatever its other bits. -/
theorem State.flagE_iff_odd (s : State) : s.flagE = true ↔ (s.reg 5).toNat % 2 = 1 := by
  rw [State.flagE, State.fl_eq, BitVec.getLsbD, Nat.testBit_zero, decide_eq_true_iff]

theorem State.not_flagE_of_even {s : State} (h : (s.reg 5).toNat % 2 = 0) : ¬ s.flagE = true :=
  mt s.flagE_iff_odd.1 (Nat.mod_two_ne_one.2 h)

/-- Settles O45: the program counter is the register's content and is not also advanced (R140). -/
theorem jmpTakesTheRegister : Obligations.JmpTakesTheRegister := by
  refine fun a => ⟨badRegisterIndexIsReported (.jmp a), fun i s ha h => ?_⟩
  have hd := Does.jmp h ha
  exact ⟨_, hd.exec_eq, State.jumpTo_pc s (s.reg i), hd.jump_frame rfl fun _ => id⟩

/-- Settles O46: the two cases of bit 0 are the two branches of JEQ's row of `Does`. -/
theorem jeqTestsBitZero : Obligations.JeqTestsBitZero := by
  refine fun a => ⟨badRegisterIndexIsReported (.jeq a), fun i s ha h => ?_⟩
  have hd := Does.jeq h ha
  refine ⟨_, hd.exec_eq, fun hodd => ?_, fun heven => ?_, hd.jump_frame rfl fun _ => id⟩
  · rw [if_pos (s.flagE_iff_odd.2 hodd), State.jumpTo_pc]
  · rw [if_neg (State.not_flagE_of_even heven), State.advance_pc]

/-- Settles O47: JNE's row of `Does` has the branches of JEQ's exchanged. -/
theorem jneTestsBitZero : Obligations.JneTestsBitZero := by
  refine fun a => ⟨badRegisterIndexIsReported (.jne a), fun i s ha h => ?_⟩
  have hd := Does.jne h ha
  refine ⟨_, hd.exec_eq, fun heven => ?_, fun hodd => ?_, hd.jump_frame rfl fun _ => id⟩
  · rw [if_neg (State.not_flagE_of_even heven), State.jumpTo_pc]
  · rw [if_pos (s.flagE_iff_odd.2 hodd), State.advance_pc]

end Sys2Proof.Machine
end

section
/-!
The statements of 44_stack_and_subroutine.md: PUSH, POP, CALL and RET, each by its rows of `Raises` and `Does` and the
frames of `Does`, and the two pairs that undo each other (R155).
-/

namespace Sys2Proof.Machine

/-! ### The stack pointer and the cell at it -/

theorem State.advance_sp (s : State) (n : Nat) : (s.advance n).sp = s.sp := rfl
theorem State.jumpTo_sp (s : State) (target : Byte) : (s.jumpTo target).sp = s.sp := rfl

theorem State.memWrite_readAt_self (s : State) (addr v : Byte) :
    (s.memWrite addr v).mem.readAt addr.toNat = v := by
  rw [State.memWrite_mem, Memory.readAt_writeAt_cases, if_pos rfl]

/-- An increment leaves the byte range exactly at 255, where a stack pointer's is a fault (R12). -/
theorem lt_toNat_succ_of_eq_max {x : Byte} (h : x = 255) : 255 < x.toNat + 1 := by
  rw [h]
  decide

theorem toNat_succ_le_of_ne_max {x : Byte} (h : x ≠ 255) : x.toNat + 1 ≤ 255 := by
  have hne : x.toNat ≠ 255 := fun e => h (BitVec.eq_of_toNat_eq e)
  have hlt := x.isLt
  omega

/-- A decremented stack pointer can be incremented, and that gives the old one back. -/
theorem decrement_toNat_succ {x : Byte} (h : x ≠ 0) : (x - 1).toNat + 1 = x.toNat := by
  have h0 : x.toNat ≠ 0 := fun e => h (BitVec.eq_of_toNat_eq e)
  rw [decrement_toNat h, Nat.sub_one_add_one h0]

theorem decrement_toNat_succ_le {x : Byte} (h : x ≠ 0) : (x - 1).toNat + 1 ≤ 255 := by
  rw [decrement_toNat_succ h]
  exact Nat.le_of_lt_succ x.isLt

theorem increment_decrement {x : Byte} (h : x ≠ 0) : BitVec.ofNat 8 ((x - 1).toNat + 1) = x := by
  rw [decrement_toNat_succ h, BitVec.ofNat_toNat, BitVec.setWidth_eq]

/-- PUSH and CALL leave the decremented stack pointer (R154). -/
theorem Does.sp_of_stores {f : Instr} {s t : State} (h : Does s f t) (hf : f.storesBelowStackTop = true) :
    t.sp = s.sp - 1 := by
  cases h with
  | push | call => exact State.setReg_sp s _
  | _ => cases hf

/-! ### What a stack instruction leaves unchanged -/

/-- The frame of an instruction by the table of R90: the registers it may write, and the cell below the stack top if
it stores. -/
theorem Does.keepsExcept {f : Instr} {s t : State} {regs : List RegIx} {cells : List Nat} (h : Does s f t)
    (hregs : ∀ r, f.mayWrite r → r ∈ regs)
    (hcells : f.storesBelowStackTop = true → (s.sp - 1).toNat ∈ cells) : KeepsExcept regs cells s t := by
  refine ⟨fun r hr => h.reg_eq (mt (hregs r) hr), fun k hk => ?_⟩
  cases hf : f.storesBelowStackTop with
  | false => rw [h.mem_eq hf]
  | true => exact h.readAt_eq fun e => hk (e ▸ hcells hf)

theorem Does.statusSame {f : Instr} {s t : State} (h : Does s f t) (hhlt : f ≠ .hlt)
    (hprn : ∀ a, f ≠ .prn a) : StatusSame s t :=
  ⟨h.running_eq hhlt, h.fault_eq, h.out_eq hprn⟩

/-- The registers POP may write are its destination and the stack pointer (R90). -/
theorem mayWrite_pop_iff {a : Byte} {i : RegIx} (ha : a.toNat = i.val) (r : RegIx) :
    (Instr.pop a).mayWrite r ↔ r = i ∨ r = 7 := by
  rw [Instr.mayWrite, ha, Fin.ext_iff (a := r) (b := i), eq_comm]

/-! ### The four instructions -/

/-- Settles O48: an empty stack is the fault of `Raises`; otherwise PUSH reads its register after the decrement. -/
theorem pushStoresBelowTheStackTop : Obligations.PushStoresBelowTheStackTop := by
  refine fun a => ⟨badRegisterIndexIsReported (.push a), fun i s ha h =>
    ⟨fun h0 => (Raises.decrement (.inl rfl) h ha h0).exec_eq, fun h0 => ?_⟩⟩
  have hd := Does.push h ha h0
  refine ⟨_, hd.exec_eq, ?_, ?_, hd.pc_eq rfl,
    hd.keepsExcept (fun _ => List.mem_singleton.2) fun _ => List.mem_singleton_self _, hd.statusSame nofun nofun⟩
  · rw [hd.sp_of_stores rfl, decrement_toNat h0]
  · rw [State.advance_mem, State.memWrite_readAt_self, State.setReg_reg]

/-- Settles O49: what POP increments is the old stack pointer, because its destination is another register. -/
theorem popLoadsTheStackTop : Obligations.PopLoadsTheStackTop := by
  refine fun a => ⟨badRegisterIndexIsReported (.pop a), fun i s ha h7 h =>
    ⟨fun hmax => (Raises.popIncrement h ha h7 (lt_toNat_succ_of_eq_max hmax)).exec_eq, fun hmax => ?_⟩⟩
  have hn := toNat_succ_le_of_ne_max hmax
  have hd := Does.pop h ha h7 hn
  refine ⟨_, hd.exec_eq, ?_, ?_, hd.pc_eq rfl,
    hd.keepsExcept (fun r hr => ?_) nofun, hd.statusSame nofun nofun⟩
  · rw [State.advance_reg, State.setReg_reg_of_ne _ _ _ h7, State.setReg_reg_self, State.memRead]
  · rw [State.advance_sp, State.setReg_sp, increment_toNat hn]
  · rcases (mayWrite_pop_iff ha r).1 hr with rfl | rfl <;> simp

/-- Settles O50: what POP R7 increments is the popped byte, which overwrote the old stack pointer (log entry 10). -/
theorem popIntoTheStackPointer : Obligations.PopIntoTheStackPointer := by
  have ha : (7 : Byte).toNat = (7 : RegIx).val := rfl
  refine fun s h =>
    ⟨fun hmax => (Raises.popSpIncrement h ha (lt_toNat_succ_of_eq_max hmax)).exec_eq, fun hmax => ?_⟩
  have hn := toNat_succ_le_of_ne_max hmax
  have hd := Does.popSp h ha hn
  refine ⟨_, hd.exec_eq, ?_, hd.pc_eq rfl,
    hd.keepsExcept (fun r hr => ?_) nofun, hd.statusSame nofun nofun⟩
  · rw [State.advance_sp, State.setReg_sp, State.memRead, increment_toNat hn]
  · exact List.mem_singleton.2 (((mayWrite_pop_iff ha r).1 hr).elim id id)

/-- Settles O51: the two faults of `Raises` in their order; otherwise CALL reads its register after the decrement. -/
theorem callPushesTheReturnAddress : Obligations.CallPushesTheReturnAddress := by
  refine fun a => ⟨badRegisterIndexIsReported (.call a), fun i s ha h =>
    ⟨fun h0 => (Raises.decrement (.inr rfl) h ha h0).exec_eq,
      fun h0 hpc => (Raises.returnAddress h ha h0 (by omega)).exec_eq, fun h0 hpc => ?_⟩⟩
  have hret : s.pc + 2 ≤ 255 := by omega
  have hd := Does.call hret ha h0
  refine ⟨_, hd.exec_eq, ?_, ?_, ?_,
    hd.keepsExcept (fun _ => List.mem_singleton.2) fun _ => List.mem_singleton_self _, hd.statusSame nofun nofun⟩
  · rw [hd.sp_of_stores rfl, decrement_toNat h0]
  · rw [State.jumpTo_mem, State.memWrite_readAt_self, increment_toNat hret]
  · rw [State.jumpTo_pc, State.setReg_reg, apply_ite BitVec.toNat]

/-- Settles O52: RET takes its target from the cell at the old stack pointer. -/
theorem retPopsTheProgramCounter : Obligations.RetPopsTheProgramCounter := by
  refine ⟨badRegisterIndexIsReported .ret, fun s h =>
    ⟨fun hmax => (Raises.retIncrement h (lt_toNat_succ_of_eq_max hmax)).exec_eq, fun hmax => ?_⟩⟩
  have hn := toNat_succ_le_of_ne_max hmax
  have hd := Does.ret h hn
  refine ⟨_, hd.exec_eq, ?_, ?_, hd.keepsExcept (fun _ => List.mem_singleton.2) nofun, hd.statusSame nofun nofun⟩
  · rw [State.jumpTo_pc, State.memRead]
  · rw [State.jumpTo_sp, State.setReg_sp, increment_toNat hn]

/-! ### The pairs that undo each other -/

/-- Settles O53: PUSH leaves the stack pointer below 255, so POP does not fault and gives the old one back. -/
theorem stackRoundTrip : Obligations.StackRoundTrip := by
  intro a b i j s ha hb hi hj h0 h
  have hpush := Does.push (by omega) ha h0
  have husp := hpush.sp_of_stores rfl
  have hpop := Does.pop (by rw [hpush.pc_eq rfl]; exact h) hb hj
    (by rw [husp]; exact decrement_toNat_succ_le h0)
  rw [husp, increment_decrement h0] at hpop
  refine ⟨_, _, hpush.exec_eq, hpop.exec_eq, ?_, State.setReg_sp _ _, fun r hr => ?_, fun k hk => ?_⟩
  · rw [State.advance_reg, State.setReg_reg_of_ne _ _ _ hj, State.setReg_reg_self, State.memRead,
      State.advance_mem, State.memWrite_readAt_self, State.setReg_reg_of_ne _ _ _ hi]
  · by_cases h7 : r = 7
    · rw [h7]
      exact State.setReg_sp _ _
    · have hrj : r ≠ j := List.ne_of_not_mem_cons hr
      exact (hpop.reg_eq (mt (mayWrite_pop_iff hb r).1 (not_or.2 ⟨hrj, h7⟩))).trans (hpush.reg_eq h7)
  · rw [hpop.mem_eq rfl, hpush.readAt_eq (List.ne_of_not_mem_cons hk)]

/-- Settles O54: RET needs of the state it starts in only the stack pointer and the cell at it. -/
theorem callReturnSymmetry : Obligations.CallReturnSymmetry := by
  intro a i s ha h h0
  have hcall := Does.call h ha h0
  refine ⟨_, hcall.exec_eq, fun u' hpc hsp hcell => ?_⟩
  rw [hcall.sp_of_stores rfl] at hsp hcell
  rw [State.jumpTo_mem, State.memWrite_readAt_self] at hcell
  have hret := Does.ret hpc (by rw [hsp]; exact decrement_toNat_succ_le h0)
  refine ⟨_, hret.exec_eq, ?_, ?_⟩
  · rw [State.jumpTo_pc, State.memRead, hsp, hcell, increment_toNat h]
  · rw [State.jumpTo_sp, State.setReg_sp, hsp, increment_decrement h0]

end Sys2Proof.Machine
end

section
/-!
The statements of 60_exceptions.md: a fault record is written by `raise` alone, so a new record names a fault of the
fetch or a row of `Raises`, and each statement reads its kind off those two.
-/

namespace Sys2Proof.Machine

/-- Settles O9: `raise` leaves the raised state, and its register file and memory are the old ones. -/
theorem raiseWritesOnlyFaultAndRun : Obligations.RaiseWritesOnlyFaultAndRun := fun _ _ _ =>
  ⟨_, rfl, rfl, rfl, rfl, rfl, keepsExcept_nil_of_eq rfl rfl⟩

/-! ### Where a fault record comes from -/

/-- An instruction that raises nothing leaves no record where there was none. -/
theorem Does.not_recorded {f : Instr} {s t : State} {r : FaultRecord} (h : Does s f t)
    (h0 : s.fault = none) : t.fault ≠ some r := by
  rw [h.fault_eq, h0]
  exact nofun

/-- A record that an instruction leaves where there was none is of a fault that `Raises` lists for it. -/
theorem exec_recorded {f : Instr} {s t : State} {r : FaultRecord} (h : exec f s = .next t)
    (h0 : s.fault = none) (hr : t.fault = some r) : Raises s f r.kind r.info ∧ r.pc = s.pc := by
  rcases exec_next_cases h with ⟨kind, info, hraises, rfl⟩ | hd
  · obtain rfl : _ = r := Option.some.inj hr
    exact ⟨hraises, rfl⟩
  · exact absurd hr (hd.not_recorded h0)

/-- A record that a step leaves where there was none is of a fault taken in the old state, and the fetch raised it or
`Raises` lists it for the fetched instruction. -/
theorem step_recorded {s t : State} {r : FaultRecord} (h : step s = .next t) (h0 : s.fault = none)
    (hr : t.fault = some r) :
    t = s.raised r.kind r.info ∧ r.pc = s.pc ∧
      (fetch Config.opcode s = .error (r.kind, r.info) ∨
        ∃ i, fetch Config.opcode s = .ok i ∧ Raises s i r.kind r.info) := by
  obtain ⟨-, ⟨kind, info, hf, rfl⟩ | ⟨i, hi, ⟨kind, info, hraises, rfl⟩ | hd⟩⟩ := stepWith_next_cases h
  · obtain rfl : _ = r := Option.some.inj hr
    exact ⟨rfl, rfl, .inl hf⟩
  · obtain rfl : _ = r := Option.some.inj hr
    exact ⟨rfl, rfl, .inr ⟨i, hi, hraises⟩⟩
  · exact absurd hr (hd.not_recorded h0)

/-- Settles O10: the state with the new record is the old one raised. -/
theorem faultsArePrecise : Obligations.FaultsArePrecise := by
  intro s t r h h0 hr
  obtain ⟨rfl, hpc, -⟩ := step_recorded h h0 hr
  exact ⟨hpc, rfl, rfl, rfl, rfl, rfl⟩

/-! ### The three kinds -/

theorem Raises.kind_ne_invalidOpcode {s : State} {f : Instr} {kind : FaultKind} {info : Int}
    (h : Raises s f kind info) : kind ≠ .invalidOpcode := by
  cases h <;> nofun

/-- Settles O15: no instruction raises `InvalidOpcode`, so the fetch did, for the byte it looked up. -/
theorem unknownByteRaisesInvalidOpcode : Obligations.UnknownByteRaisesInvalidOpcode := by
  refine ⟨fun s hrun hp hop => step_of_fetch_error hrun (fetch_of_lookup_eq_none hp hop),
    fun s t r h h0 hr hkind => ?_⟩
  obtain ⟨-, hpc, hf | ⟨i, -, hraises⟩⟩ := step_recorded h h0 hr
  · rcases fetch_error_cases hf with ⟨hout, -⟩ | ⟨-, hp, hop, hinfo⟩
    · exact absurd (hkind.symm.trans hout) nofun
    · exact ⟨hp, hop, by rw [← hkind, ← hinfo, ← hpc]⟩
  · exact absurd hkind hraises.kind_ne_invalidOpcode

/-- Only DIV and MOD raise `DivideByZero`, for a divisor register that holds 0 (R173). -/
theorem Raises.of_divideByZero {s : State} {f : Instr} {info : Int} (h : Raises s f .divideByZero info) :
    ∃ (a b : Byte) (j : RegIx), (f = .div a b ∨ f = .mod a b) ∧ a.toNat < 8 ∧ b.toNat = j.val ∧
      s.reg j = 0 ∧ info = j.val := by
  cases h with
  | @divisor _ a b i j hf _ hi hj hzero => exact ⟨a, b, j, hf, by rw [hi]; exact i.isLt, hj, hzero, rfl⟩

/-- Settles O12: both directions are the row of `Raises` for a zero divisor. -/
theorem divideByZeroComesFromDivAndModOnly : Obligations.DivideByZeroComesFromDivAndModOnly := by
  refine ⟨fun f s t r h h0 hr hkind => ?_, fun a b j s ha hb hp hzero => ?_⟩
  · obtain ⟨hraises, hpc⟩ := exec_recorded h h0 hr
    rw [hkind] at hraises
    obtain ⟨a, b, j, hf, ha, hb, hzero, hinfo⟩ := hraises.of_divideByZero
    exact ⟨a, b, j, hf, ha, hb, hzero, hpc, hinfo⟩
  · have hi : a.toNat = (⟨a.toNat, ha⟩ : RegIx).val := rfl
    exact ⟨(Raises.divisor (.inl rfl) hp hi hb hzero).exec_eq,
      (Raises.divisor (.inr rfl) hp hi hb hzero).exec_eq⟩

/-! ### The situations of `OutOfRange` -/

/-- The fetch raises `OutOfRange(256)` only, for an opcode byte or a declared operand byte beyond the memory
(R82, R85). -/
theorem fetch_outOfRange {t : OpcodeTable} {s : State} {info : Int}
    (h : fetch t s = .error (.outOfRange, info)) :
    info = 256 ∧
      (255 < s.pc ∨ ∃ m, t.lookup (s.mem.readAt s.pc) = some m ∧ 255 < s.pc + m.operandCount) := by
  obtain ⟨-, hinfo⟩ | ⟨hkind, -⟩ := fetch_error_cases h
  case inr => cases hkind
  refine ⟨hinfo, (Nat.lt_or_ge 255 s.pc).imp_right fun hp => ?_⟩
  cases hop : t.lookup (s.mem.readAt s.pc) with
  | none =>
    rw [fetch_of_lookup_eq_none hp hop] at h
    cases h
  | some m =>
    refine ⟨m, rfl, Nat.lt_of_not_le fun hn => ?_⟩
    rw [fetch_of_lookup_eq_some hop hn] at h
    cases h

/-- A bad register operand is byte a, in a format with operands, or byte b, in format `RR` (R61). -/
theorem Mnemonic.firstBad_build_cases {m : Mnemonic} {a b c : Byte}
    (h : firstBad (m.build a b).registerOperands = some c) :
    8 ≤ c.toNat ∧ (m.format ≠ .Z ∧ c = a ∨ m.format = .RR ∧ c = b) := by
  obtain ⟨hmem, h8⟩ := firstBad_bad h
  refine ⟨h8, ?_⟩
  rw [Mnemonic.build_registerOperands] at hmem
  cases hf : m.format with
  | Z =>
    rw [hf] at hmem
    cases hmem
  | R | RR | RI => simpa [hf] using hmem

theorem eq_max_of_lt_toNat_succ {x : Byte} (h : 255 < x.toNat + 1) : x = 255 :=
  by_contra fun hne => Nat.not_le.2 h (toNat_succ_le_of_ne_max hne)

/-- Settles O11: the first two situations are the fetch's, the others the rows of `Raises`. -/
theorem outOfRangeOnlyInTheSevenSituations : Obligations.OutOfRangeOnlyInTheSevenSituations := by
  rintro s t ⟨kind, pc, info⟩ h h0 hr rfl
  obtain ⟨-, -, hf | ⟨i, hi, hraises⟩⟩ := step_recorded h h0 hr
  · obtain ⟨hinfo, hp | ⟨m, hop, hn⟩⟩ := fetch_outOfRange hf
    · exact .inl ⟨hp, hinfo⟩
    · exact .inr ⟨m, hop, .inl ⟨hn, hinfo⟩⟩
  obtain ⟨hop, hn, hbuild⟩ := fetch_ok_cases hi
  refine .inr ⟨_, hop, ?_⟩
  cases hraises with
  | space hbeyond => exact .inl ⟨hbeyond, rfl⟩
  | index _ hbad =>
    rw [hbuild] at hbad
    obtain ⟨h8, ⟨hformat, rfl⟩ | ⟨hformat, rfl⟩⟩ := Mnemonic.firstBad_build_cases hbad
    · exact .inr (.inl ⟨hformat, h8, rfl⟩)
    · exact .inr (.inr (.inl ⟨hformat, h8, rfl⟩))
  | decrement hpush_or_call _ _ hsp =>
    have hm : i.mnemonic = .push ∨ i.mnemonic = .call :=
      hpush_or_call.imp (congrArg Instr.mnemonic) (congrArg Instr.mnemonic)
    exact .inr (.inr (.inr (.inl ⟨hm, hsp, rfl⟩)))
  | returnAddress hp _ _ hret =>
    exact .inr (.inr (.inr (.inr (.inl ⟨rfl, by omega, rfl⟩))))
  | popIncrement _ _ _ hmax =>
    exact .inr (.inr (.inr (.inr (.inr (.inl ⟨.inl rfl, eq_max_of_lt_toNat_succ hmax, rfl⟩)))))
  | retIncrement _ hmax =>
    exact .inr (.inr (.inr (.inr (.inr (.inl ⟨.inr rfl, eq_max_of_lt_toNat_succ hmax, rfl⟩)))))
  | popSpIncrement _ ha hmax =>
    obtain rfl := Instr.pop.inj hbuild
    have hseven : s.mem.readAt (s.pc + 1) = 7 := BitVec.eq_of_toNat_eq ha
    exact .inr (.inr (.inr (.inr (.inr (.inr ⟨rfl, hseven, eq_max_of_lt_toNat_succ hmax, rfl⟩)))))

end Sys2Proof.Machine
end
